-- ==== Sys2Proof/Word.lean ====
section
/-! DEFINITION. The word types of Sonne-16: "Instruction and data words are 16 bits wide" (R5, R8, R40). -/

namespace Sys2Proof

/-- A 16-bit word: the width of every register, address, instruction and memory cell (R5, R8). -/
abbrev Word := BitVec 16

/-- Eight bits: half of a word, the unit in which the model lists a memory's contents (`Host.Cell`). -/
abbrev Byte := BitVec 8

/-- A subroutine frame key: four 3-bit register indices, slot 0 in the high bits (R17). -/
abbrev FrameKey := BitVec 12

end Sys2Proof
end

