-- ==== Sys2Proof/Config.lean ====
section
/-! DEFINITION. What the implementation or the platform fixes (R5): the sizes of the two memories, the two named
parameters of split evidence, and the platform's answer to a CPU request, which is a free value. The VALUES of the
parameters that a platform chooses stand in Sys2Proof/Machine/Params.lean. -/

namespace Sys2Proof

/-- The two readings of "arithmetically" for the bits SHR shifts in: parameter `SHR_FILL` (R5, R127). -/
inductive ShrFill where
  | zero
  | sign
deriving DecidableEq, Repr

/-- Which operand SUB negates: parameter `SUB_ORDER` (R5, R154). -/
inductive SubOrder where
  | r2MinusR1
  | r1MinusR2
deriving DecidableEq, Repr

/-- What a CPU instruction hands to the platform: the 7-bit request code and the value of the selected register
(R100). -/
structure CpuRequest where
  code  : BitVec 7
  value : Word
deriving DecidableEq, Repr

/-- What the platform answers to a CPU request: either no result or a 16-bit word for the selected register (R100),
and whether it ends the run (R185). -/
structure PlatformAnswer where
  result  : Option Word
  endsRun : Bool
deriving DecidableEq, Repr, Inhabited

/-- What the platform does at one instruction boundary: the parameter `Platform.irq` (R176). -/
inductive PlatformEvent where
  /-- No interrupt request and no completion at this boundary: an instruction runs. -/
  | quiet
  /-- An interrupt request is taken (R173); the handler's address is the platform's to say (R175, R176). -/
  | request (handler : Word)
  /-- The interrupt has been handled (R174); the address to resume at is the platform's to say (R175, R176). -/
  | handled (resume : Word)
deriving DecidableEq, Repr

namespace Config

/-- `RAM_WORDS`: words of main RAM (R5, R40; DESIGN CHOICE of the spec, D5). -/
def ramWords : Nat := 65536

/-- `FS_DEPTH`: words of the frame store (R5, R18; DESIGN CHOICE, the spec leaves it open up to 65536, D3). -/
def fsDepth : Nat := 65536

/-- `Platform.cpu` (R5, R100): the platform's answer to a CPU request, a FREE VALUE. It may depend on every request made
before (newest first) as well as on the code and the value now offered. No body: nothing is known of it (D8). -/
opaque platformCpu : List CpuRequest → BitVec 7 → Word → PlatformAnswer

end Config

end Sys2Proof
end

