-- ==== Sys2Proof/Machine/Params.lean ====
section
/-! DEFINITION. The values this model takes for the named parameters of R5 that a platform chooses. -/

namespace Sys2Proof.Machine

/-- `SFP_RESET` (R32): FF00h, the suggested default of D6. DESIGN CHOICE, unsafe (notes/assumptions/1.md). -/
def sfpReset : Word := 0xFF00

/-- `IFP_RESET` (R32): 0000h, the suggested default of D6. DESIGN CHOICE, unsafe (notes/assumptions/1.md). -/
def ifpReset : Word := 0x0000

/-- `CFK_RESET` (R32): 000h, the suggested default of D6. DESIGN CHOICE, unsafe (notes/assumptions/1.md). -/
def cfkReset : FrameKey := 0x000

/-- `SHR_FILL` (R5, R127): zero, as spec/90_conflicts.md C4 resolves (notes/assumptions/10.md). -/
def shrFill : ShrFill := .zero

/-- `SUB_ORDER` (R5, R154): R2 minus R1, as spec/90_conflicts.md C5 resolves (notes/assumptions/11.md). -/
def subOrder : SubOrder := .r2MinusR1

end Sys2Proof.Machine
end

