-- ==== Sys2Proof/Machine/Flags.lean ====
section
/-! DEFINITION. The machine has no flags; comparison results and the carry of ADD and SUB are the words 0 and 1 that go
to D (R21). All comparisons are unsigned (R108, R129, R155). Shifts stand here too (R126, R127). -/

namespace Sys2Proof.Machine

/-- A truth value as the word D receives: 1 or 0 (R105). -/
def truth (b : Bool) : Word := if b then 1 else 0

/-- `a <u b` as 1 or 0 (R105, R121). -/
def lessWord (a b : Word) : Word := truth (decide (a.toNat < b.toNat))

/-- `a == b` as 1 or 0 (R106, R122). -/
def equalWord (a b : Word) : Word := truth (decide (a = b))

/-- `a >u b` as 1 or 0 (R107, R123). -/
def greaterWord (a b : Word) : Word := truth (decide (b.toNat < a.toNat))

/-- The exact 17-bit sum of two words (R153). -/
def sum17 (a b : Word) : BitVec 17 := a.zeroExtend 17 + b.zeroExtend 17

/-- Bits 15 to 0 of the sum (R153). -/
def sumWord (a b : Word) : Word := (sum17 a b).extractLsb' 0 16

/-- The carry out of bit 15, bit 16 of the sum, as 1 or 0 (R153). -/
def carryWord (a b : Word) : Word := ((sum17 a b).extractLsb' 16 1).zeroExtend 16

/-- The 16-bit two's complement `(~v + 1)[15:0]`; zero stays zero (R154). -/
def complement (v : Word) : Word := ~~~v + 1

/-- The two addends of SUB for the registers R2 and R1: the minuend and the complement of the subtrahend (R154). -/
def subAddends (order : SubOrder) (x2 x1 : Word) : Word × Word :=
  match order with
  | .r2MinusR1 => (x2, complement x1)
  | .r1MinusR2 => (x1, complement x2)

/-- Left shift, zeros enter at bit 0 (R126). -/
def shiftLeft (v : Word) (count : Nat) : Word := v <<< count

/-- Right shift; what enters at bit 15 is the parameter `SHR_FILL` (R127). -/
def shiftRight (fill : ShrFill) (v : Word) (count : Nat) : Word :=
  match fill with
  | .zero => v >>> count
  | .sign => v.sshiftRight count

end Sys2Proof.Machine
end

