-- ==== Sys2Proof/Syntax.lean ====
section
/-! DEFINITION. The syntax of Sonne-16: the 16 programmer-visible registers (R23) and the 24 instructions (R70), one
constructor per row of spec/opcode_table.json. -/

namespace Sys2Proof

/-- The 16 programmer-visible registers, in selector order 0 to 15 (R23). -/
inductive Reg where
  | d | e | sp | dp
  | a1 | a2 | a3 | a4
  | r | l1 | l2 | l3 | l4 | l5 | l6 | l7
deriving DecidableEq, Repr

/-- The 24 instructions. Fields stand in the order of the word: L first, then R2 or the literal, then R1; an
instruction of mode 2 names L, R1 and its literal. Literals are the bits of the word, but for the shift count, which is
the number the word holds plus one (R67). The word after SET 7Fh, DTC and JSR is data and no part of the instruction
(R60). -/
inductive Instr where
  /-- Mode 1: platform request `code` with register `l` (R100). -/
  | cpu (l : Reg) (code : BitVec 7)
  /-- Mode 1: load a literal; 7Fh takes the next word (R101). -/
  | set (l : Reg) (seven : BitVec 7)
  /-- Mode 1: relative branch if false (R102). -/
  | rbf (l : Reg) (seven : BitVec 7)
  /-- Mode 1: relative branch if true (R103). -/
  | rbt (l : Reg) (seven : BitVec 7)
  /-- Mode 1: direct threaded code (R104). -/
  | dtc (l : Reg) (seven : BitVec 7)
  /-- Mode 1: less than literal (R105). -/
  | ltl (l : Reg) (seven : BitVec 7)
  /-- Mode 1: equal to literal (R106). -/
  | eql (l : Reg) (seven : BitVec 7)
  /-- Mode 1: greater than literal (R107). -/
  | gtl (l : Reg) (seven : BitVec 7)
  /-- Mode 2: jump and link (R120). -/
  | jmp (l r1 : Reg) (lor : BitVec 3)
  /-- Mode 2: less than register (R121). -/
  | ltr (l r1 : Reg) (lor : BitVec 3)
  /-- Mode 2: equal to register (R122). -/
  | eqr (l r1 : Reg) (lor : BitVec 3)
  /-- Mode 2: greater than register (R123). -/
  | gtr (l r1 : Reg) (lor : BitVec 3)
  /-- Mode 2: load a word (R124). -/
  | lod (l r1 : Reg) (lor : BitVec 3)
  /-- Mode 2: store a word (R125). -/
  | sto (l r1 : Reg) (lor : BitVec 3)
  /-- Mode 2: shift left by `count`, 1 to 8 (R126). -/
  | shl (l r1 : Reg) (count : Nat)
  /-- Mode 2: shift right by `count`, 1 to 8 (R127). -/
  | shr (l r1 : Reg) (count : Nat)
  /-- Mode 2: add a 4-bit signed literal (R128). -/
  | get (l r1 : Reg) (r2 : BitVec 4)
  /-- Mode 3: jump to subroutine with a frame key (R140). -/
  | jsr (twelve : FrameKey)
  /-- Mode 3: return from subroutine with a return code (R141). -/
  | rts (twelve : BitVec 12)
  /-- Mode 4: bitwise AND (R150). -/
  | and (l r2 r1 : Reg)
  /-- Mode 4: bitwise inclusive OR (R151). -/
  | ior (l r2 r1 : Reg)
  /-- Mode 4: bitwise exclusive OR (R152). -/
  | eor (l r2 r1 : Reg)
  /-- Mode 4: add, carry into D (R153). -/
  | add (l r2 r1 : Reg)
  /-- Mode 4: subtract, carry of the addition into D (R154). -/
  | sub (l r2 r1 : Reg)
deriving DecidableEq, Repr

/-- The 24 mnemonics (R70, R83). -/
inductive Mnemonic where
  | cpu | set | rbf | rbt | dtc | ltl | eql | gtl
  | jmp | ltr | eqr | gtr | lod | sto | shl | shr | get
  | jsr | rts
  | and | ior | eor | add | sub
deriving DecidableEq, Repr

/-- The mnemonic of an instruction (R70). -/
def Instr.mnemonic : Instr → Mnemonic
  | .cpu _ _ => .cpu
  | .set _ _ => .set
  | .rbf _ _ => .rbf
  | .rbt _ _ => .rbt
  | .dtc _ _ => .dtc
  | .ltl _ _ => .ltl
  | .eql _ _ => .eql
  | .gtl _ _ => .gtl
  | .jmp _ _ _ => .jmp
  | .ltr _ _ _ => .ltr
  | .eqr _ _ _ => .eqr
  | .gtr _ _ _ => .gtr
  | .lod _ _ _ => .lod
  | .sto _ _ _ => .sto
  | .shl _ _ _ => .shl
  | .shr _ _ _ => .shr
  | .get _ _ _ => .get
  | .jsr _ => .jsr
  | .rts _ => .rts
  | .and _ _ _ => .and
  | .ior _ _ _ => .ior
  | .eor _ _ _ => .eor
  | .add _ _ _ => .add
  | .sub _ _ _ => .sub

end Sys2Proof
end

