-- ==== Sys2Proof/WellFormed.lean ====
section
/-! DEFINITION. Which instructions have a word. Every field of every word is used and every value of a field is legal
(R72), so a field that holds the word's own bits needs no check; the shift count is a number and must be one of 1 to 8
(R67, R126, R127). -/

namespace Sys2Proof

/-- The shift counts a word can hold: `R2_LOR + 1`, 1 to 8 (R67). -/
def shiftCountOk (count : Nat) : Bool := decide (1 ≤ count) && decide (count ≤ 8)

/-- An instruction is well formed when some word encodes it. -/
def Instr.wellFormed : Instr → Bool
  | .cpu _ _ => true
  | .set _ _ => true
  | .rbf _ _ => true
  | .rbt _ _ => true
  | .dtc _ _ => true
  | .ltl _ _ => true
  | .eql _ _ => true
  | .gtl _ _ => true
  | .jmp _ _ _ => true
  | .ltr _ _ _ => true
  | .eqr _ _ _ => true
  | .gtr _ _ _ => true
  | .lod _ _ _ => true
  | .sto _ _ _ => true
  | .shl _ _ count => shiftCountOk count
  | .shr _ _ count => shiftCountOk count
  | .get _ _ _ => true
  | .jsr _ => true
  | .rts _ => true
  | .and _ _ _ => true
  | .ior _ _ _ => true
  | .eor _ _ _ => true
  | .add _ _ _ => true
  | .sub _ _ _ => true

end Sys2Proof
end

