-- ==== Sys2Proof/Decode.lean ====
section
/-! DEFINITION. Decoding and encoding of the 16-bit instruction word (R60 to R74). The decoder reads the constituents of
R61 and selects by the operation code of R63 and R70; the encoder writes each word from the layout of R61 and R70; the
opcode rows are the patterns of R70 as masks (R71). -/

namespace Sys2Proof

/-- Why bytes are not an instruction. -/
inductive DecodeError where
  /-- Fewer bytes than one word: no instruction is shorter than one word (R60). -/
  | truncated
  /-- An operation code outside the matrix of R70; no word has one (R72). -/
  | noSuchOpcode
deriving DecidableEq, Repr

/-- The register that a 4-bit selector names (R23). -/
def regOfSelector (s : BitVec 4) : Reg :=
  match s.toNat with
  | 0 => .d
  | 1 => .e
  | 2 => .sp
  | 3 => .dp
  | 4 => .a1
  | 5 => .a2
  | 6 => .a3
  | 7 => .a4
  | 8 => .r
  | 9 => .l1
  | 10 => .l2
  | 11 => .l3
  | 12 => .l4
  | 13 => .l5
  | 14 => .l6
  | _ => .l7

/-- The 4-bit selector of a register (R23). -/
def selectorOf : Reg → BitVec 4
  | .d => 0
  | .e => 1
  | .sp => 2
  | .dp => 3
  | .a1 => 4
  | .a2 => 5
  | .a3 => 6
  | .a4 => 7
  | .r => 8
  | .l1 => 9
  | .l2 => 10
  | .l3 => 11
  | .l4 => 12
  | .l5 => 13
  | .l6 => 14
  | .l7 => 15

/-! The constituents of the word (R61) and the composite literals (R64, R65). -/

/-- G, the guide code, `iw[15:12]` (R61, R62). -/
def fieldG (iw : Word) : BitVec 4 := iw.extractLsb' 12 4

/-- L, `iw[11:8]` (R61). -/
def fieldL (iw : Word) : BitVec 4 := iw.extractLsb' 8 4

/-- R2_MSB, `iw[7]` (R61). -/
def fieldR2Msb (iw : Word) : BitVec 1 := iw.extractLsb' 7 1

/-- R2_LOR, `iw[6:4]` (R61). -/
def fieldR2Lor (iw : Word) : BitVec 3 := iw.extractLsb' 4 3

/-- R2, `iw[7:4]` (R61). -/
def fieldR2 (iw : Word) : BitVec 4 := iw.extractLsb' 4 4

/-- R1, `iw[3:0]` (R61). -/
def fieldR1 (iw : Word) : BitVec 4 := iw.extractLsb' 0 4

/-- SEVEN, `iw[6:0]` (R64). -/
def fieldSeven (iw : Word) : BitVec 7 := iw.extractLsb' 0 7

/-- TWELVE, `iw[11:0]` (R65). -/
def fieldTwelve (iw : Word) : BitVec 12 := iw.extractLsb' 0 12

/-- The 5-bit operation code, G followed by R2_MSB (R63). -/
def opcodeOf (iw : Word) : BitVec 5 := fieldG iw ++ fieldR2Msb iw

/-- The instruction of a word: operation codes 0 to 15 by all five bits, 16 to 31 in pairs (R70, R71). -/
def decode (iw : Word) : Except DecodeError Instr :=
  let l := regOfSelector (fieldL iw)
  let r1 := regOfSelector (fieldR1 iw)
  let r2 := regOfSelector (fieldR2 iw)
  let seven := fieldSeven iw
  let lor := fieldR2Lor iw
  match (opcodeOf iw).toNat with
  | 0 => .ok (.cpu l seven)
  | 1 => .ok (.set l seven)
  | 2 => .ok (.rbf l seven)
  | 3 => .ok (.rbt l seven)
  | 4 => .ok (.dtc l seven)
  | 5 => .ok (.ltl l seven)
  | 6 => .ok (.eql l seven)
  | 7 => .ok (.gtl l seven)
  | 8 => .ok (.jmp l r1 lor)
  | 9 => .ok (.ltr l r1 lor)
  | 10 => .ok (.eqr l r1 lor)
  | 11 => .ok (.gtr l r1 lor)
  | 12 => .ok (.lod l r1 lor)
  | 13 => .ok (.sto l r1 lor)
  | 14 => .ok (.shl l r1 (lor.toNat + 1))
  | 15 => .ok (.shr l r1 (lor.toNat + 1))
  | 16 | 17 => .ok (.get l r1 (fieldR2 iw))
  | 18 | 19 => .ok (.jsr (fieldTwelve iw))
  | 20 | 21 => .ok (.rts (fieldTwelve iw))
  | 22 | 23 => .ok (.and l r2 r1)
  | 24 | 25 => .ok (.ior l r2 r1)
  | 26 | 27 => .ok (.eor l r2 r1)
  | 28 | 29 => .ok (.add l r2 r1)
  | 30 | 31 => .ok (.sub l r2 r1)
  | _ => .error .noSuchOpcode

/-- A word from its two halves, the more significant first: the order in which the model lists a word's bytes, that of
the saved memory image (R43). -/
def wordOfBytes (high low : Byte) : Word := high ++ low

/-- The more significant half of a word. -/
def highByte (w : Word) : Byte := w.extractLsb' 8 8

/-- The less significant half of a word. -/
def lowByte (w : Word) : Byte := w.extractLsb' 0 8

/-- Decoding of a list of bytes: one word is taken, the rest is given back (R60). -/
def decodeBytes : List Byte → Except DecodeError (Instr × List Byte)
  | high :: low :: rest =>
    match decode (wordOfBytes high low) with
    | .ok i => .ok (i, rest)
    | .error e => .error e
  | _ => .error .truncated

/-- The instruction the decoder reads from an instruction of `nbits` bits `w`, whose bits above `nbits` are 0: the first
word is bits 15 to 0, laid out as its two bytes. -/
def decodeTableWord (nbits w : Nat) : Option Instr :=
  let iw : Word := BitVec.ofNat 16 (w % 2 ^ nbits)
  match decodeBytes [highByte iw, lowByte iw] with
  | .ok (i, _) => some i
  | .error _ => none

/-! Encoding (R61, R70). -/

/-- A word of mode 1: `gggg LLLL b sss ssss`. -/
def sevenWord (g : BitVec 4) (msb : BitVec 1) (l : Reg) (seven : BitVec 7) : Word :=
  g ++ selectorOf l ++ msb ++ seven

/-- A word of mode 2, GET apart: `gggg LLLL b nnn rrrr`. -/
def offsWord (g : BitVec 4) (msb : BitVec 1) (l r1 : Reg) (lor : BitVec 3) : Word :=
  g ++ selectorOf l ++ msb ++ lor ++ selectorOf r1

/-- A word of mode 3: `gggg kkkk kkkk kkkk`. -/
def twelveWord (g : BitVec 4) (twelve : BitVec 12) : Word := g ++ twelve

/-- A word of mode 4, and of GET: `gggg LLLL qqqq rrrr`. -/
def pairWord (g : BitVec 4) (l : Reg) (r2 : BitVec 4) (r1 : Reg) : Word :=
  g ++ selectorOf l ++ r2 ++ selectorOf r1

/-- R2_LOR of a shift: the count minus one (R67, R74). -/
def shiftField (count : Nat) : BitVec 3 := BitVec.ofNat 3 (count - 1)

/-- The word of an instruction (R70). -/
def encode : Instr → Word
  | .cpu l seven => sevenWord 0 0 l seven
  | .set l seven => sevenWord 0 1 l seven
  | .rbf l seven => sevenWord 1 0 l seven
  | .rbt l seven => sevenWord 1 1 l seven
  | .dtc l seven => sevenWord 2 0 l seven
  | .ltl l seven => sevenWord 2 1 l seven
  | .eql l seven => sevenWord 3 0 l seven
  | .gtl l seven => sevenWord 3 1 l seven
  | .jmp l r1 lor => offsWord 4 0 l r1 lor
  | .ltr l r1 lor => offsWord 4 1 l r1 lor
  | .eqr l r1 lor => offsWord 5 0 l r1 lor
  | .gtr l r1 lor => offsWord 5 1 l r1 lor
  | .lod l r1 lor => offsWord 6 0 l r1 lor
  | .sto l r1 lor => offsWord 6 1 l r1 lor
  | .shl l r1 count => offsWord 7 0 l r1 (shiftField count)
  | .shr l r1 count => offsWord 7 1 l r1 (shiftField count)
  | .get l r1 r2 => pairWord 8 l r2 r1
  | .jsr twelve => twelveWord 9 twelve
  | .rts twelve => twelveWord 10 twelve
  | .and l r2 r1 => pairWord 11 l (selectorOf r2) r1
  | .ior l r2 r1 => pairWord 12 l (selectorOf r2) r1
  | .eor l r2 r1 => pairWord 13 l (selectorOf r2) r1
  | .add l r2 r1 => pairWord 14 l (selectorOf r2) r1
  | .sub l r2 r1 => pairWord 15 l (selectorOf r2) r1

/-! The opcode table as masks and patterns (R70, R71). -/

/-- One row of the operation code matrix: the words it covers are those that agree with `pattern` under `mask`. -/
structure OpcodeRow where
  mnemonic : Mnemonic
  mask     : Word
  pattern  : Word
deriving DecidableEq, Repr

/-- Whether a word belongs to a row. -/
def OpcodeRow.covers (row : OpcodeRow) (iw : Word) : Bool := iw &&& row.mask == row.pattern

/-- The row of each mnemonic: mask F080h for operation codes 0 to 15, F000h for the others (R71). -/
def opcodeRow : Mnemonic → OpcodeRow
  | .cpu => ⟨.cpu, 0xF080, 0x0000⟩
  | .set => ⟨.set, 0xF080, 0x0080⟩
  | .rbf => ⟨.rbf, 0xF080, 0x1000⟩
  | .rbt => ⟨.rbt, 0xF080, 0x1080⟩
  | .dtc => ⟨.dtc, 0xF080, 0x2000⟩
  | .ltl => ⟨.ltl, 0xF080, 0x2080⟩
  | .eql => ⟨.eql, 0xF080, 0x3000⟩
  | .gtl => ⟨.gtl, 0xF080, 0x3080⟩
  | .jmp => ⟨.jmp, 0xF080, 0x4000⟩
  | .ltr => ⟨.ltr, 0xF080, 0x4080⟩
  | .eqr => ⟨.eqr, 0xF080, 0x5000⟩
  | .gtr => ⟨.gtr, 0xF080, 0x5080⟩
  | .lod => ⟨.lod, 0xF080, 0x6000⟩
  | .sto => ⟨.sto, 0xF080, 0x6080⟩
  | .shl => ⟨.shl, 0xF080, 0x7000⟩
  | .shr => ⟨.shr, 0xF080, 0x7080⟩
  | .get => ⟨.get, 0xF000, 0x8000⟩
  | .jsr => ⟨.jsr, 0xF000, 0x9000⟩
  | .rts => ⟨.rts, 0xF000, 0xA000⟩
  | .and => ⟨.and, 0xF000, 0xB000⟩
  | .ior => ⟨.ior, 0xF000, 0xC000⟩
  | .eor => ⟨.eor, 0xF000, 0xD000⟩
  | .add => ⟨.add, 0xF000, 0xE000⟩
  | .sub => ⟨.sub, 0xF000, 0xF000⟩

end Sys2Proof
end

