-- ==== Sys2Proof/Machine/Memory.lean ====
section
/-! DEFINITION. A memory of 16-bit words (R18, R40), held as a list of (address, byte) cells in one canonical form: the
word at word address `a` stands in the two cells `2a` (its more significant byte) and `2a + 1`, the order of the saved
memory image (R43). Byte addresses are the model's way of listing a memory (notes/assumptions/13.md): every operation the
machine uses reads or writes a whole word at a word address, since "there is no provision for byte-size access" (R40). -/

namespace Sys2Proof.Machine

/-- The contents of a memory: the listed cells; every other byte reads as `unlistedByte`. -/
abbrev Memory := List Host.Cell

/-- What an unlisted byte reads as: zero, for main RAM (R33, notes/assumptions/3.md) and for the frame store (R34,
notes/assumptions/2.md). DESIGN CHOICE, unsafe. -/
def unlistedByte : Byte := 0

/-- The byte at a cell address. -/
def Memory.readByte (m : Memory) (b : Nat) : Byte :=
  match m with
  | [] => unlistedByte
  | (k, v) :: rest => if k = b then v else Memory.readByte rest b

/-- The cells but those at address `b`. -/
def Memory.erase (m : Memory) (b : Nat) : Memory := List.filter (fun cell => cell.1 != b) m

/-- A cell put before the first cell of a greater address. -/
def Memory.insert (m : Memory) (b : Nat) (v : Byte) : Memory :=
  match m with
  | [] => [(b, v)]
  | (k, w) :: rest => if b < k then (b, v) :: (k, w) :: rest else (k, w) :: Memory.insert rest b v

/-- Writing one cell; the value an unlisted byte reads as is not listed. -/
def Memory.writeByte (m : Memory) (b : Nat) (v : Byte) : Memory :=
  if v = unlistedByte then Memory.erase m b else Memory.insert (Memory.erase m b) b v

/-- The cell of the more significant byte of the word at `a`. -/
def cellOf (a : Word) : Nat := 2 * a.toNat

/-- The word at a word address (R43: every access moves exactly one whole word). -/
def Memory.readWord (m : Memory) (a : Word) : Word :=
  wordOfBytes (Memory.readByte m (cellOf a)) (Memory.readByte m (cellOf a + 1))

/-- Writing the word at a word address (R43). -/
def Memory.writeWord (m : Memory) (a v : Word) : Memory :=
  Memory.writeByte (Memory.writeByte m (cellOf a) (highByte v)) (cellOf a + 1) (lowByte v)

/-- The canonical form of a memory of `words` words: addresses strictly rising, each inside the memory, and no cell
equal to what an unlisted one reads as. -/
def Memory.wf (m : Memory) (words : Nat) : Bool :=
  decide (List.Pairwise (fun cell next => cell.1 < next.1) m) &&
    List.all m (fun cell => decide (cell.1 < 2 * words) && cell.2 != unlistedByte)

end Sys2Proof.Machine
end

