-- ==== Sys2Proof/Machine/State.lean ====
section
/-! DEFINITION. The whole architectural state (R13 to R35): four hidden registers, the frame store that holds every
programmer-visible register, and main RAM; beside them three fields of the model's own for what passes between the
machine and its platform. -/

namespace Sys2Proof.Machine

/-- The state of the machine. Plain data. -/
structure State where
  /-- Program Counter: the address of the next instruction, and during an instruction its own address (R14, R10). -/
  pc       : Word
  /-- Subroutine Frame Pointer: frame-store address of the current subroutine frame of 9 words (R15). -/
  sfp      : Word
  /-- Interrupt Frame Pointer: frame-store address of the current interrupt frame of 4 words (R16). -/
  ifp      : Word
  /-- Current Frame Key: four 3-bit indices into the caller's subroutine frame (R17). -/
  cfk      : FrameKey
  /-- The frame store, an address space of its own; D, E, SP, DP, A1 to A4, R, L1 to L7 and FK are words of it
  (R18 to R25, R41). -/
  fs       : Memory
  /-- Main RAM: instructions and data (R40). -/
  ram      : Memory
  /-- The model's own: the CPU requests made so far, newest first (R100; notes/assumptions/4.md). -/
  requests : List CpuRequest
  /-- The model's own: the platform has ended the run (R185; notes/assumptions/5.md). -/
  runEnded : Bool
  /-- The model's own: what the platform does at the coming instruction boundaries; past the end of the list no request
  ever occurs (R176; notes/assumptions/6.md). -/
  irq      : List PlatformEvent
deriving DecidableEq, Repr

/-- Why a step stops. -/
inductive Fault where
  /-- Raised by `step` alone: the platform has ended the run (R185), so no further instruction is executed. Safe: the
  model says nothing of what follows. -/
  | runEnded
deriving DecidableEq, Repr

/-- Why a step has no meaning. -/
inductive Refusal where
  /-- Raised by `exec` for an instruction without a meaning; none is left. Safe: the model says nothing of it. -/
  | notModelled (mnemonic : String)
  /-- Raised by `step` for a word that decodes to no instruction; every word decodes (R72), so it is never raised.
  Safe. -/
  | undecodable
deriving DecidableEq, Repr

/-- The machine right after reset (R200): PC is 0000h (R31); SFP, IFP and CFK are the named parameters (R32); both
memories list nothing (R33, R34); nothing has passed between machine and platform. -/
def State.reset : State where
  pc       := 0x0000
  sfp      := sfpReset
  ifp      := ifpReset
  cfk      := cfkReset
  fs       := []
  ram      := []
  requests := []
  runEnded := false
  irq      := []

end Sys2Proof.Machine
end

