-- ==== Sys2Proof/Machine/Ops.lean ====
section
/-! DEFINITION. The named operations over registers and memory: selector resolution (R24), register and memory access
(R25, R41, R50), the program counter (R14), the subroutine frames (R26, R140, R141), the two interrupt movements
(R173, R174) and the exchange with the platform (R100). -/

namespace Sys2Proof.Machine

/-! Updates of one piece of state each. -/

/-- `pc <- v`. -/
def State.setPc (s : State) (v : Word) : State := { s with pc := v }

/-- `sfp <- v`. -/
def State.setSfp (s : State) (v : Word) : State := { s with sfp := v }

/-- `ifp <- v`. -/
def State.setIfp (s : State) (v : Word) : State := { s with ifp := v }

/-- `cfk <- v`. -/
def State.setCfk (s : State) (v : FrameKey) : State := { s with cfk := v }

/-- `FsWrite(a, v)`: the frame-store word at `a` (R9, R18). -/
def State.writeFs (s : State) (a v : Word) : State := { s with fs := Memory.writeWord s.fs a v }

/-- `MemWrite(a, 1, v)`: the main-RAM word at `a` (R9, R40). -/
def State.memWrite (s : State) (a v : Word) : State := { s with ram := Memory.writeWord s.ram a v }

/-- A request is handed to the platform (R100). -/
def State.logRequest (s : State) (req : CpuRequest) : State := { s with requests := req :: s.requests }

/-- The events left for the coming instruction boundaries (R176). -/
def State.setIrq (s : State) (events : List PlatformEvent) : State := { s with irq := events }

/-! Reads. -/

/-- `FsRead(a)` (R9, R18). -/
def State.readFs (s : State) (a : Word) : Word := Memory.readWord s.fs a

/-- `MemRead(a, 1)` (R9, R40). -/
def State.memRead (s : State) (a : Word) : Word := Memory.readWord s.ram a

/-! Selector resolution (R22, R24). -/

/-- Slots 0 to 3 of a frame key, high bits first (R17, R24). -/
def keySlot (key : FrameKey) (n : Fin 4) : BitVec 3 :=
  match n with
  | 0 => key.extractLsb' 9 3
  | 1 => key.extractLsb' 6 3
  | 2 => key.extractLsb' 3 3
  | 3 => key.extractLsb' 0 3

/-- The frame key whose slots 0 to 3 are the four indices: `k1*512 + k2*64 + k3*8 + k4` (R142). -/
def frameKey (k1 k2 k3 k4 : BitVec 3) : FrameKey := k1 ++ k2 ++ k3 ++ k4

/-- Words in a subroutine frame (R15, R19). -/
def subFrameWords : Word := 9

/-- Words in an interrupt frame (R16, R20). -/
def intFrameWords : Word := 4

/-- Offset of FK, the saved frame key, in a subroutine frame (R19). -/
def fkOffset : Word := 8

/-- The frame-store address of an alias: the caller's frame, indexed by a slot of CFK (R22, R24). -/
def State.aliasAddr (s : State) (n : Fin 4) : Word :=
  s.sfp + subFrameWords + (keySlot s.cfk n).zeroExtend 16

/-- `ref`: the frame-store address that a register names (R24). -/
def State.ref (s : State) : Reg → Word
  | .d => s.ifp + 0
  | .e => s.ifp + 1
  | .sp => s.ifp + 2
  | .dp => s.ifp + 3
  | .a1 => s.aliasAddr 0
  | .a2 => s.aliasAddr 1
  | .a3 => s.aliasAddr 2
  | .a4 => s.aliasAddr 3
  | .r => s.sfp + 0
  | .l1 => s.sfp + 1
  | .l2 => s.sfp + 2
  | .l3 => s.sfp + 3
  | .l4 => s.sfp + 4
  | .l5 => s.sfp + 5
  | .l6 => s.sfp + 6
  | .l7 => s.sfp + 7

/-- `x[s]` read (R25). -/
def State.readReg (s : State) (x : Reg) : Word := s.readFs (s.ref x)

/-- `x[s] <- v` (R25). -/
def State.writeReg (s : State) (x : Reg) (v : Word) : State := s.writeFs (s.ref x) v

/-- The implicit write of D, `FS[ifp + 0] <- v` (R21). -/
def State.writeD (s : State) (v : Word) : State := s.writeReg .d v

/-- The frame-store address of FK, the hidden ninth word of the current subroutine frame (R19). -/
def State.fkAddr (s : State) : Word := s.sfp + fkOffset

/-! The program counter (R14). -/

/-- `pc <- pc + n`, modulo 2^16. -/
def State.advance (s : State) (n : Word) : State := s.setPc (s.pc + n)

/-- The word after the instruction word: `MemRead(pc + 1, 1)` (R45). -/
def State.nextWord (s : State) : Word := s.memRead (s.pc + 1)

/-! Subroutine frames (R26, R140, R141). -/

/-- A new subroutine frame below the current one: its FK holds the caller's frame key, its R the return address, and the
new frame key is current (R140). -/
def State.pushFrame (s : State) (key : FrameKey) (return_ : Word) : State :=
  let inner := s.setSfp (s.sfp - subFrameWords)
  let saved := inner.writeFs inner.fkAddr (s.cfk.zeroExtend 16)
  (saved.setCfk key).writeReg .r return_

/-- The current subroutine frame is left: the caller's frame key comes from `saved`, the word FK held, of which the low
12 bits are kept (R17, R141). The frame left behind is not cleared. -/
def State.popFrame (s : State) (saved : Word) : State :=
  (s.setCfk (saved.setWidth 12)).setSfp (s.sfp + subFrameWords)

/-! The interrupt movements. The machine has no exception (R170); these two are all that the spec fixes of an interrupt,
and no instruction performs them (R172 to R176). -/

/-- An interrupt request is taken: `ifp <- ifp + 4` (R173). The handler's address is the platform's (R176); where the
interrupted PC goes is the platform's too and is not kept in this state (notes/assumptions/6.md). -/
def State.enterInterrupt (s : State) (handler : Word) : State :=
  (s.setIfp (s.ifp + intFrameWords)).setPc handler

/-- The interrupt has been handled: `ifp <- ifp - 4` (R174). The address to resume at is the platform's (R176). -/
def State.leaveInterrupt (s : State) (resume : Word) : State :=
  (s.setIfp (s.ifp - intFrameWords)).setPc resume

/-! The exchange with the platform (R100). -/

/-- `Platform.cpu(code, x[L])`: the free answer, which may depend on the requests made before (D8). -/
def State.platformAnswer (s : State) (l : Reg) (code : BitVec 7) : PlatformAnswer :=
  Config.platformCpu s.requests code (s.readReg l)

/-- The frame store after an answer: the selected register receives the result, if there is one (R100). -/
def State.fsAfterAnswer (s : State) (l : Reg) (answer : PlatformAnswer) : Memory :=
  match answer.result with
  | none => s.fs
  | some v => (s.writeReg l v).fs

/-- The answer of the platform takes effect: the result, if any, goes to the selected register (R100), and the run ends
if the platform says so (R185). -/
def State.deliver (s : State) (l : Reg) (answer : PlatformAnswer) : State :=
  { s with fs := s.fsAfterAnswer l answer, runEnded := s.runEnded || answer.endsRun }

/-- One CPU request with a given answer: the request is handed over, the answer takes effect (R100). -/
def State.transfer (s : State) (l : Reg) (code : BitVec 7) (answer : PlatformAnswer) : State :=
  (s.logRequest ⟨code, s.readReg l⟩).deliver l answer

end Sys2Proof.Machine
end

