-- ==== Sys2Proof/Machine/Operands.lean ====
section
/-! DEFINITION. The operand forms: the literals extended to 16 bits (R8, R64 to R67) and the two register-plus-literal
sums (R66). All sums are modulo 2^16. -/

namespace Sys2Proof.Machine

/-- SEVEN zero-extended, 0 to 127 (R64). -/
def zext7 (seven : BitVec 7) : Word := seven.zeroExtend 16

/-- SEVEN sign-extended, -64 to 63 (R64). -/
def sext7 (seven : BitVec 7) : Word := seven.signExtend 16

/-- TWELVE zero-extended (R65). -/
def zext12 (twelve : BitVec 12) : Word := twelve.zeroExtend 16

/-- R2_LOR zero-extended, 0 to 7 (R66). -/
def zext3 (lor : BitVec 3) : Word := lor.zeroExtend 16

/-- R2_LOR sign-extended, -4 to 3 (R66). -/
def sext3 (lor : BitVec 3) : Word := lor.signExtend 16

/-- R2 sign-extended, -8 to 7 (R67). -/
def sext4 (r2 : BitVec 4) : Word := r2.signExtend 16

/-- The literal of SET that takes the next word instead, 7Fh (R101). -/
def fetchLiteral : BitVec 7 := 0x7F

/-- OFFS: the register R1 selects plus the unsigned literal (R66); the address of JMP, LOD and STO (R46). -/
def State.offs (s : State) (r1 : Reg) (lor : BitVec 3) : Word := s.readReg r1 + zext3 lor

/-- SXOFFS: the register R1 selects plus the signed literal, truncated to 16 bits (R66, R129). -/
def State.sxoffs (s : State) (r1 : Reg) (lor : BitVec 3) : Word := s.readReg r1 + sext3 lor

end Sys2Proof.Machine
end

