-- ==== Sys2Proof/Machine/Mode1.lean ====
section
/-! DEFINITION. The meanings of the mode 1 (SEVEN) instructions: CPU, SET, RBF, RBT, DTC, LTL, EQL, GTL (R100 to
R110). -/

namespace Sys2Proof.Machine

/-- A branch of a literal's distance from the branch word itself if the condition holds, else the next word (R102,
R103). -/
def State.branchIf (s : State) (taken : Bool) (seven : BitVec 7) : State :=
  if taken then s.advance (sext7 seven) else s.advance 1

/-- CPU: the request and the selected register go to the platform, its answer takes effect, the PC advances (R100). -/
def execCpu (l : Reg) (code : BitVec 7) (s : State) : Host.Outcome State Fault Refusal :=
  .next ((s.transfer l code (s.platformAnswer l code)).advance 1)

/-- SET: the literal, or for 7Fh the next word, which the PC then skips (R101). -/
def execSet (l : Reg) (seven : BitVec 7) (s : State) : Host.Outcome State Fault Refusal :=
  .next (if seven = fetchLiteral then (s.writeReg l s.nextWord).advance 2
    else (s.writeReg l (zext7 seven)).advance 1)

/-- RBF: branch if the register is zero (R102). -/
def execRbf (l : Reg) (seven : BitVec 7) (s : State) : Host.Outcome State Fault Refusal :=
  .next (s.branchIf (s.readReg l == 0) seven)

/-- RBT: branch if the register is not zero (R103). -/
def execRbt (l : Reg) (seven : BitVec 7) (s : State) : Host.Outcome State Fault Refusal :=
  .next (s.branchIf (s.readReg l != 0) seven)

/-- DTC: the target word is read, L receives the address of the DTC word, then D the literal, then the PC the target
(R104). -/
def execDtc (l : Reg) (seven : BitVec 7) (s : State) : Host.Outcome State Fault Refusal :=
  .next (((s.writeReg l s.pc).writeD (zext7 seven)).setPc s.nextWord)

/-- LTL: D is 1 if the register is less than the literal, else 0 (R105). -/
def execLtl (l : Reg) (seven : BitVec 7) (s : State) : Host.Outcome State Fault Refusal :=
  .next ((s.writeD (lessWord (s.readReg l) (zext7 seven))).advance 1)

/-- EQL: D is 1 if the register equals the literal, else 0 (R106). -/
def execEql (l : Reg) (seven : BitVec 7) (s : State) : Host.Outcome State Fault Refusal :=
  .next ((s.writeD (equalWord (s.readReg l) (zext7 seven))).advance 1)

/-- GTL: D is 1 if the register is greater than the literal, else 0 (R107). -/
def execGtl (l : Reg) (seven : BitVec 7) (s : State) : Host.Outcome State Fault Refusal :=
  .next ((s.writeD (greaterWord (s.readReg l) (zext7 seven))).advance 1)

end Sys2Proof.Machine
end

