-- ==== Sys2Proof/Machine/Mode2.lean ====
section
/-! DEFINITION. The meanings of the mode 2 (OFFS) instructions: JMP, LTR, EQR, GTR, LOD, STO, SHL, SHR, GET (R120 to
R129). -/

namespace Sys2Proof.Machine

/-- JMP: the target is OFFS of the state before; L receives the address of the JMP word (R120). -/
def execJmp (l r1 : Reg) (lor : BitVec 3) (s : State) : Host.Outcome State Fault Refusal :=
  .next ((s.writeReg l s.pc).setPc (s.offs r1 lor))

/-- LTR: D is 1 if the register is less than SXOFFS, else 0 (R121). -/
def execLtr (l r1 : Reg) (lor : BitVec 3) (s : State) : Host.Outcome State Fault Refusal :=
  .next ((s.writeD (lessWord (s.readReg l) (s.sxoffs r1 lor))).advance 1)

/-- EQR: D is 1 if the register equals SXOFFS, else 0 (R122). -/
def execEqr (l r1 : Reg) (lor : BitVec 3) (s : State) : Host.Outcome State Fault Refusal :=
  .next ((s.writeD (equalWord (s.readReg l) (s.sxoffs r1 lor))).advance 1)

/-- GTR: D is 1 if the register is greater than SXOFFS, else 0 (R123). -/
def execGtr (l r1 : Reg) (lor : BitVec 3) (s : State) : Host.Outcome State Fault Refusal :=
  .next ((s.writeD (greaterWord (s.readReg l) (s.sxoffs r1 lor))).advance 1)

/-- LOD: L receives the main-RAM word at OFFS (R124). -/
def execLod (l r1 : Reg) (lor : BitVec 3) (s : State) : Host.Outcome State Fault Refusal :=
  .next ((s.writeReg l (s.memRead (s.offs r1 lor))).advance 1)

/-- STO: the main-RAM word at OFFS receives L (R125). -/
def execSto (l r1 : Reg) (lor : BitVec 3) (s : State) : Host.Outcome State Fault Refusal :=
  .next ((s.memWrite (s.offs r1 lor) (s.readReg l)).advance 1)

/-- SHL: L receives R1 shifted left by the count (R126). -/
def execShl (l r1 : Reg) (count : Nat) (s : State) : Host.Outcome State Fault Refusal :=
  .next ((s.writeReg l (shiftLeft (s.readReg r1) count)).advance 1)

/-- SHR: L receives R1 shifted right by the count (R127). -/
def execShr (l r1 : Reg) (count : Nat) (s : State) : Host.Outcome State Fault Refusal :=
  .next ((s.writeReg l (shiftRight shrFill (s.readReg r1) count)).advance 1)

/-- GET: L receives R1 plus the 4-bit signed literal (R128). -/
def execGet (l r1 : Reg) (r2 : BitVec 4) (s : State) : Host.Outcome State Fault Refusal :=
  .next ((s.writeReg l (s.readReg r1 + sext4 r2)).advance 1)

end Sys2Proof.Machine
end

