-- ==== Sys2Proof/Machine/Mode3.lean ====
section
/-! DEFINITION. The meanings of the mode 3 (TWELVE) instructions: JSR and RTS (R140, R141). -/

namespace Sys2Proof.Machine

/-- JSR: the target word and D are read; a new frame is made with the return address `pc + 2`; the PC becomes the target
word, or D if that word is zero (R140). -/
def execJsr (twelve : FrameKey) (s : State) : Host.Outcome State Fault Refusal :=
  .next ((s.pushFrame twelve (s.pc + 2)).setPc (if s.nextWord ≠ 0 then s.nextWord else s.readReg .d))

/-- RTS: R and FK of the frame being left are read; D receives the return code, the PC the return address, CFK the
caller's frame key, and the frame is left (R141). -/
def execRts (twelve : BitVec 12) (s : State) : Host.Outcome State Fault Refusal :=
  .next (((s.writeD (zext12 twelve)).setPc (s.readReg .r)).popFrame (s.readFs s.fkAddr))

end Sys2Proof.Machine
end

