-- ==== Sys2Proof/Machine/Mode4.lean ====
section
/-! DEFINITION. The meanings of the mode 4 (PAIR) instructions: AND, IOR, EOR, ADD, SUB (R150 to R156). -/

namespace Sys2Proof.Machine

/-- A sum and its carry are stored: L receives the 16-bit sum, then D the carry, so that for L = D the carry remains
(R153, R156). -/
def State.storeSum (s : State) (l : Reg) (a b : Word) : State :=
  ((s.writeReg l (sumWord a b)).writeD (carryWord a b)).advance 1

/-- AND (R150). -/
def execAnd (l r2 r1 : Reg) (s : State) : Host.Outcome State Fault Refusal :=
  .next ((s.writeReg l (s.readReg r2 &&& s.readReg r1)).advance 1)

/-- IOR (R151). -/
def execIor (l r2 r1 : Reg) (s : State) : Host.Outcome State Fault Refusal :=
  .next ((s.writeReg l (s.readReg r2 ||| s.readReg r1)).advance 1)

/-- EOR (R152). -/
def execEor (l r2 r1 : Reg) (s : State) : Host.Outcome State Fault Refusal :=
  .next ((s.writeReg l (s.readReg r2 ^^^ s.readReg r1)).advance 1)

/-- ADD: the sum into L, the carry into D (R153). -/
def execAdd (l r2 r1 : Reg) (s : State) : Host.Outcome State Fault Refusal :=
  .next (s.storeSum l (s.readReg r2) (s.readReg r1))

/-- SUB: the sum of one register and the two's complement of the other into L, the carry of that addition into D
(R154). -/
def execSub (l r2 r1 : Reg) (s : State) : Host.Outcome State Fault Refusal :=
  .next (s.storeSum l (subAddends subOrder (s.readReg r2) (s.readReg r1)).1
    (subAddends subOrder (s.readReg r2) (s.readReg r1)).2)

end Sys2Proof.Machine
end

