-- ==== Sys2Proof/Machine/Dispatch.lean ====
section
/-! DEFINITION. Which meaning each instruction has: one arm per constructor of Instr. -/

namespace Sys2Proof.Machine

def exec (i : Instr) (s : State) : Host.Outcome State Fault Refusal :=
  match i with
  | .cpu l code => Sys2Proof.Machine.execCpu l code s
  | .set l seven => Sys2Proof.Machine.execSet l seven s
  | .rbf l seven => Sys2Proof.Machine.execRbf l seven s
  | .rbt l seven => Sys2Proof.Machine.execRbt l seven s
  | .dtc l seven => Sys2Proof.Machine.execDtc l seven s
  | .ltl l seven => Sys2Proof.Machine.execLtl l seven s
  | .eql l seven => Sys2Proof.Machine.execEql l seven s
  | .gtl l seven => Sys2Proof.Machine.execGtl l seven s
  | .jmp l r1 lor => Sys2Proof.Machine.execJmp l r1 lor s
  | .ltr l r1 lor => Sys2Proof.Machine.execLtr l r1 lor s
  | .eqr l r1 lor => Sys2Proof.Machine.execEqr l r1 lor s
  | .gtr l r1 lor => Sys2Proof.Machine.execGtr l r1 lor s
  | .lod l r1 lor => Sys2Proof.Machine.execLod l r1 lor s
  | .sto l r1 lor => Sys2Proof.Machine.execSto l r1 lor s
  | .shl l r1 count => Sys2Proof.Machine.execShl l r1 count s
  | .shr l r1 count => Sys2Proof.Machine.execShr l r1 count s
  | .get l r1 r2 => Sys2Proof.Machine.execGet l r1 r2 s
  | .jsr twelve => Sys2Proof.Machine.execJsr twelve s
  | .rts twelve => Sys2Proof.Machine.execRts twelve s
  | .and l r2 r1 => Sys2Proof.Machine.execAnd l r2 r1 s
  | .ior l r2 r1 => Sys2Proof.Machine.execIor l r2 r1 s
  | .eor l r2 r1 => Sys2Proof.Machine.execEor l r2 r1 s
  | .add l r2 r1 => Sys2Proof.Machine.execAdd l r2 r1 s
  | .sub l r2 r1 => Sys2Proof.Machine.execSub l r2 r1 s

end Sys2Proof.Machine
end

