-- ==== Sys2Proof/Machine/Fetch.lean ====
section
/-! DEFINITION. What happens at an instruction boundary, and the fetch of an instruction (R10, R176). -/

namespace Sys2Proof.Machine

/-- What an instruction boundary comes to. -/
inductive Boundary where
  /-- The platform has ended the run (R185). -/
  | ended
  /-- The platform moved the machine between two instructions (R173, R174). -/
  | moved (s : State)
  /-- An instruction runs from this state. -/
  | run (s : State)
deriving DecidableEq, Repr

/-- The boundary before the next instruction. Interrupt events land only here, so that every instruction is atomic
(R176); with no event listed no interrupt request occurs. -/
def State.boundary (s : State) : Boundary :=
  if s.runEnded then .ended
  else
    match s.irq with
    | [] => .run s
    | .quiet :: rest => .run (s.setIrq rest)
    | .request handler :: rest => .moved ((s.setIrq rest).enterInterrupt handler)
    | .handled resume :: rest => .moved ((s.setIrq rest).leaveInterrupt resume)

/-- `iw <- MemRead(pc, 1)` (R10). -/
def State.fetch (s : State) : Word := s.memRead s.pc

/-- The state in which an instruction of words `first` and `second` stands at the PC and runs next: no interrupt event
is listed and the run has not ended. -/
def State.placeAtPc (s : State) (first second : Word) : State :=
  { (s.memWrite s.pc first).memWrite (s.pc + 1) second with runEnded := false, irq := [] }

end Sys2Proof.Machine
end

