-- ==== Sys2Proof/Machine/Step.lean ====
section
/-! DEFINITION. One step of the machine (R10): at the instruction boundary the platform's event, if there is one, else
the word at the PC is fetched, decoded and executed. -/

namespace Sys2Proof.Machine

/-- Fetch, decode and execute one instruction (R10). -/
def runInstr (s : State) : Host.Outcome State Fault Refusal :=
  match decode s.fetch with
  | .ok i => exec i s
  | .error _ => .refused .undecodable

/-- One step. -/
def step (s : State) : Host.Outcome State Fault Refusal :=
  match s.boundary with
  | .ended => .fault .runEnded
  | .moved t => .next t
  | .run t => runInstr t

/-- `s` with the instruction whose `nbits` bits are `w` at the PC, its first word at `pc`, the bits above `nbits` zero up
to the two words of the longest instruction (R45), ready to run at the very next step. -/
def State.withFetchWord (s : State) (nbits w : Nat) : State :=
  s.placeAtPc (BitVec.ofNat 16 (w % 2 ^ nbits)) (BitVec.ofNat 16 (w % 2 ^ nbits / 2 ^ 16))

end Sys2Proof.Machine
end

