-- ==== Sys2Proof/Machine/Assembly.lean ====
section
/-! DEFINITION. The assembly language of R80 to R88, as far as it is the spec's: line and comment form, numbers, register
and mnemonic names, operand order and defaults, labels and relative references, data, and the two passes that turn a list
of items into words. It stands beside the machine: `step` does not use it. The matching of tokens to patterns is the
firmware's (R4 (c), R89) and is not modelled: an item is what a matched pattern stands for. -/

namespace Sys2Proof.Machine

/-- An identifier's characters. -/
abbrev Ident := List Char

/-! Text (R80, R83, R84, R86). -/

/-- The code of a line: none for a comment line, which starts with neither a space nor an `@` definition; else the text
before the first semicolon (R80). DESIGN CHOICE (notes/assumptions/16.md): a semicolon between inch marks begins a comment
too. -/
def lineCode (line : List Char) : Option (List Char) :=
  match line with
  | ' ' :: _ => some (line.takeWhile (· != ';'))
  | '@' :: _ => some (line.takeWhile (· != ';'))
  | _ => none

/-- The value of a digit of a base (R86). DESIGN CHOICE (notes/assumptions/16.md): the hexadecimal digits above 9 are A to
F in upper case; a to f are refused. -/
def digitValue (base : Nat) (c : Char) : Option Nat :=
  let v := if '0'.toNat ≤ c.toNat ∧ c.toNat ≤ '9'.toNat then some (c.toNat - '0'.toNat)
    else if 'A'.toNat ≤ c.toNat ∧ c.toNat ≤ 'F'.toNat then some (c.toNat - 'A'.toNat + 10)
    else none
  v.bind (fun n => if n < base then some n else none)

/-- The number that digits denote, after those already read. -/
def digitsValue (base : Nat) (sofar : Nat) (cs : List Char) : Option Nat :=
  match cs with
  | [] => some sofar
  | c :: rest => (digitValue base c).bind (fun v => digitsValue base (base * sofar + v) rest)

/-- An unsigned number with an optional base indicator `h` or `b` at its end (R86). -/
def unsignedNumber (cs : List Char) : Option Nat :=
  let digits := if cs.getLast? = some 'h' ∨ cs.getLast? = some 'b' then cs.dropLast else cs
  let base := if cs.getLast? = some 'h' then 16 else if cs.getLast? = some 'b' then 2 else 10
  if digits = [] then none else digitsValue base 0 digits

/-- A number with an optional plus or minus sign (R86). -/
def numberOf (cs : List Char) : Option Int :=
  match cs with
  | '-' :: rest => (unsignedNumber rest).map (fun n => -(n : Int))
  | '+' :: rest => (unsignedNumber rest).map (fun n => (n : Int))
  | _ => (unsignedNumber cs).map (fun n => (n : Int))

/-- The register names of R23, in selector order (R83). -/
def registerNames : List (Ident × Reg) :=
  [(['D'], .d), (['E'], .e), (['S', 'P'], .sp), (['D', 'P'], .dp),
   (['A', '1'], .a1), (['A', '2'], .a2), (['A', '3'], .a3), (['A', '4'], .a4),
   (['R'], .r), (['L', '1'], .l1), (['L', '2'], .l2), (['L', '3'], .l3),
   (['L', '4'], .l4), (['L', '5'], .l5), (['L', '6'], .l6), (['L', '7'], .l7)]

/-- The 24 mnemonics in upper case (R83). -/
def mnemonicNames : List (Ident × Mnemonic) :=
  [(['C', 'P', 'U'], .cpu), (['S', 'E', 'T'], .set), (['R', 'B', 'F'], .rbf), (['R', 'B', 'T'], .rbt),
   (['D', 'T', 'C'], .dtc), (['L', 'T', 'L'], .ltl), (['E', 'Q', 'L'], .eql), (['G', 'T', 'L'], .gtl),
   (['J', 'M', 'P'], .jmp), (['L', 'T', 'R'], .ltr), (['E', 'Q', 'R'], .eqr), (['G', 'T', 'R'], .gtr),
   (['L', 'O', 'D'], .lod), (['S', 'T', 'O'], .sto), (['S', 'H', 'L'], .shl), (['S', 'H', 'R'], .shr),
   (['G', 'E', 'T'], .get), (['J', 'S', 'R'], .jsr), (['R', 'T', 'S'], .rts), (['A', 'N', 'D'], .and),
   (['I', 'O', 'R'], .ior), (['E', 'O', 'R'], .eor), (['A', 'D', 'D'], .add), (['S', 'U', 'B'], .sub)]

/-- The register of a name (R83). -/
def registerOf (name : Ident) : Option Reg := List.lookup name registerNames

/-- The mnemonic of a name (R83). -/
def mnemonicOf (name : Ident) : Option Mnemonic := List.lookup name mnemonicNames

/-- What a bare identifier stands for (R84). -/
inductive NameKind where
  /-- An upper-case identifier: a unique address label. -/
  | label
  /-- A mixed case identifier: a numeric constant defined by DEF. -/
  | constant
deriving DecidableEq, Repr

/-- The kind of a bare identifier, by the case of its letters (R84); digits and underscores have none. DESIGN CHOICE
(notes/assumptions/16.md): an identifier without an upper-case letter is neither. -/
def nameKind (name : Ident) : Option NameKind :=
  if name.any Char.isUpper then some (if name.any Char.isLower then .constant else .label) else none

/-- What a word of a line is, strings apart (R83 to R86). -/
inductive AsmToken where
  | number (n : Int)
  | register (x : Reg)
  | mnemonic (m : Mnemonic)
  /-- The keyword DEF (R84). -/
  | define
  /-- A bare identifier: a label or a constant (R84). -/
  | name (kind : NameKind) (name : Ident)
  /-- `@NAME` (R84). -/
  | mark (name : Ident)
  /-- `>NAME` (R85). -/
  | following (name : Ident)
  /-- `<NAME` (R85). -/
  | preceding (name : Ident)
  /-- `::` (R86). -/
  | break_
deriving DecidableEq, Repr

/-- The token of a word that is neither a reference nor a definition: the kinds are tried in the order in which R89 lists
them, so that only what is no number, register name or mnemonic is an identifier. DESIGN CHOICE
(notes/assumptions/16.md): that order. -/
def plainToken (word : List Char) : Option AsmToken :=
  match numberOf word with
  | some n => some (.number n)
  | none =>
    match registerOf word with
    | some x => some (.register x)
    | none =>
      match mnemonicOf word with
      | some m => some (.mnemonic m)
      | none => if word = ['D', 'E', 'F'] then some .define else (nameKind word).map (fun kind => .name kind word)

/-- The token of a word (R83 to R86). -/
def tokenOf (word : List Char) : Option AsmToken :=
  match word with
  | [':', ':'] => some .break_
  | '@' :: c :: rest => some (.mark (c :: rest))
  | '>' :: c :: rest => some (.following (c :: rest))
  | '<' :: c :: rest => some (.preceding (c :: rest))
  | _ => plainToken word

/-! Items of a source (R81, R84 to R86). -/

/-- An operand after a mnemonic. -/
inductive AsmArg where
  | reg (x : Reg)
  | num (n : Int)
  /-- A bare identifier: the address of a label or the value of a constant, by its case (R84). -/
  | name (name : Ident)
  /-- `>NAME`: the nearest mark of the name after this address, relative to it (R85). -/
  | following (name : Ident)
  /-- `<NAME`: the nearest mark of the name before this address, relative to it (R85). -/
  | preceding (name : Ident)
deriving DecidableEq, Repr

/-- What stands in a source. -/
inductive AsmItem where
  /-- An instruction `L XYZ R1 R2` (R81); `l` is none where the L register is omitted (R82). -/
  | code (l : Option Reg) (mnemonic : Mnemonic) (args : List AsmArg)
  /-- A number outside an instruction: a 16-bit number in the object code (R86). -/
  | data (n : Int)
  /-- Characters between inch marks: one word each (R86). -/
  | chars (cs : List Char)
  /-- `@NAME`: an address symbol at the current object code address (R84). -/
  | mark (name : Ident)
  /-- A bare identifier outside an instruction: a label's address or a constant's value as a 16-bit number, by its case
  (R84, R86). -/
  | name (name : Ident)
  /-- `>NAME` outside an instruction: the absolute address (R85). -/
  | following (name : Ident)
  /-- `<NAME` outside an instruction: the absolute address (R85). -/
  | preceding (name : Ident)
  /-- `::` ends the current instruction (R86). -/
  | break_
  /-- `DEF Name <Number>` (R84). -/
  | define (name : Ident) (value : Int)
deriving DecidableEq, Repr

/-- Words of object code that an item takes. -/
def AsmItem.size : AsmItem → Nat
  | .code _ _ _ => 1
  | .data _ => 1
  | .chars cs => cs.length
  | .mark _ => 0
  | .name _ => 1
  | .following _ => 1
  | .preceding _ => 1
  | .break_ => 0
  | .define _ _ => 0

/-- The symbol table: marks with their addresses in the order of the source, and the constants (R84). -/
structure Symbols where
  marks     : List (Ident × Nat)
  constants : List (Ident × Int)
deriving DecidableEq, Repr

/-- The first pass: the symbols of a source whose object code starts at `here` (R84). Addresses do not wrap here; a source
with one past FFFFh is refused by the second pass (`AsmItem.fits`). -/
def symbolsOf (here : Nat) (items : List AsmItem) : Symbols :=
  match items with
  | [] => ⟨[], []⟩
  | item :: rest =>
    let later := symbolsOf (here + item.size) rest
    match item with
    | .mark name => ⟨(name, here) :: later.marks, later.constants⟩
    | .define name value => ⟨later.marks, (name, value) :: later.constants⟩
    | _ => later

/-- The addresses of a name's marks, rising. -/
def Symbols.addresses (t : Symbols) (name : Ident) : List Nat :=
  (t.marks.filter (fun m => m.1 == name)).map Prod.snd

/-- The nearest mark following an address (R85). -/
def Symbols.nextMark (t : Symbols) (name : Ident) (here : Nat) : Option Nat :=
  (t.addresses name).find? (fun a => decide (here < a))

/-- The nearest mark before an address (R85). DESIGN CHOICE (notes/assumptions/16.md): a mark at the address itself is
included, since it stands before what is placed there. -/
def Symbols.prevMark (t : Symbols) (name : Ident) (here : Nat) : Option Nat :=
  ((t.addresses name).filter (fun a => decide (a ≤ here))).getLast?

/-- The address of a name marked exactly once (R84). DESIGN CHOICE (notes/assumptions/16.md): none for any other. -/
def Symbols.unique (t : Symbols) (name : Ident) : Option Nat :=
  match t.addresses name with
  | [a] => some a
  | _ => none

/-- What a bare identifier is substituted by: an upper-case one by the address of its label, a mixed case one by the
constant DEF gives it, inside an instruction and outside (R84). DESIGN CHOICE (notes/assumptions/16.md): of two
definitions of a constant the first counts. -/
def Symbols.nameValue (t : Symbols) (name : Ident) : Option Int :=
  match nameKind name with
  | some .label => (t.unique name).map (fun a => (a : Int))
  | some .constant => List.lookup name t.constants
  | none => none

/-! Instructions (R81, R82, R87, R88). -/

/-- The number an operand stands for inside an instruction at `here`; a reference is relative to it (R85), a bare
identifier is not (R84). -/
def AsmArg.value (t : Symbols) (here : Nat) : AsmArg → Option Int
  | .reg _ => none
  | .num n => some n
  | .name x => t.nameValue x
  | .following x => (t.nextMark x here).map (fun a => (a : Int) - (here : Int))
  | .preceding x => (t.prevMark x here).map (fun a => (a : Int) - (here : Int))

/-- A number as a field of `w` bits, if it lies in the field's range. -/
def fieldOf (w : Nat) (low high n : Int) : Option (BitVec w) :=
  if low ≤ n ∧ n ≤ high then some (BitVec.ofInt w n) else none

/-- The 7-bit field of a branch: the distance from the branch word in two's complement, -64 to 63 (R85, R102). -/
def branchField (n : Int) : Option (BitVec 7) := fieldOf 7 (-64) 63 n

/-- The index of a register of the subroutine frame, 0 to 7; other registers cannot stand in a frame key (R143). -/
def frameIndex : Reg → Option (BitVec 3)
  | .r => some 0
  | .l1 => some 1
  | .l2 => some 2
  | .l3 => some 3
  | .l4 => some 4
  | .l5 => some 5
  | .l6 => some 6
  | .l7 => some 7
  | _ => none

/-- The R1 register, the L register (R1 where it is omitted) and the small literal of a mode 2 line (0 where it is
omitted) (R81, R82). -/
def offsOperands (t : Symbols) (here : Nat) (l : Option Reg) (omitted : Int) :
    List AsmArg → Option (Reg × Reg × Int)
  | [.reg r1] => some (l.getD r1, r1, omitted)
  | [.reg r1, a] => (a.value t here).map (fun n => (l.getD r1, r1, n))
  | _ => none

/-- The 7-bit literal of a mode 1 line, unsigned (R81). -/
def sevenOperand (t : Symbols) (here : Nat) : List AsmArg → Option (BitVec 7)
  | [a] => (a.value t here).bind (fieldOf 7 0 127)
  | _ => none

/-- The registers of a mode 4 line, L, R2, R1: the text order is R1, R2; an omitted L is R1 (R81, R82). DESIGN CHOICE
(notes/assumptions/16.md): a line without R2 is refused, since R82 gives it R2_LOR = 0 but no R2_MSB. -/
def pairOperands (l : Option Reg) : List AsmArg → Option (Reg × Reg × Reg)
  | [.reg r1, .reg r2] => some (l.getD r1, r2, r1)
  | _ => none

/-- The instruction of a line at address `here` (R81, R82). DESIGN CHOICE (notes/assumptions/16.md): a mode 1 line
without L is refused, since R82 takes an omitted L from R1 and such a line has none; so are operands of another kind or
number, and literals outside their field. -/
def instrOf (t : Symbols) (here : Nat) (l : Option Reg) (mnemonic : Mnemonic) (args : List AsmArg) : Option Instr :=
  let seven (make : Reg → BitVec 7 → Instr) : Option Instr :=
    l.bind (fun x => (sevenOperand t here args).map (make x))
  let branch (make : Reg → BitVec 7 → Instr) : Option Instr :=
    match args with
    | [a] => l.bind (fun x => ((a.value t here).bind branchField).map (make x))
    | _ => none
  let offs (low high : Int) (make : Reg → Reg → BitVec 3 → Instr) : Option Instr :=
    (offsOperands t here l 0 args).bind (fun o => (fieldOf 3 low high o.2.2).map (make o.1 o.2.1))
  let shift (make : Reg → Reg → Nat → Instr) : Option Instr :=
    (offsOperands t here l 1 args).bind
      (fun o => if 1 ≤ o.2.2 ∧ o.2.2 ≤ 8 then some (make o.1 o.2.1 o.2.2.toNat) else none)
  let pair (make : Reg → Reg → Reg → Instr) : Option Instr :=
    (pairOperands l args).map (fun o => make o.1 o.2.1 o.2.2)
  match mnemonic with
  | .cpu => seven .cpu
  | .set => if args = [] then l.map (fun x => .set x fetchLiteral) else seven .set
  | .rbf => branch .rbf
  | .rbt => branch .rbt
  | .dtc => seven .dtc
  | .ltl => seven .ltl
  | .eql => seven .eql
  | .gtl => seven .gtl
  | .jmp => offs 0 7 .jmp
  | .ltr => offs (-4) 3 .ltr
  | .eqr => offs (-4) 3 .eqr
  | .gtr => offs (-4) 3 .gtr
  | .lod => offs 0 7 .lod
  | .sto => offs 0 7 .sto
  | .shl => shift .shl
  | .shr => shift .shr
  | .get => (offsOperands t here l 0 args).bind (fun o => (fieldOf 4 (-8) 7 o.2.2).map (.get o.1 o.2.1))
  | .jsr =>
    match l, args with
    | none, [.reg k1, .reg k2, .reg k3, .reg k4] =>
      match frameIndex k1, frameIndex k2, frameIndex k3, frameIndex k4 with
      | some i1, some i2, some i3, some i4 => some (.jsr (frameKey i1 i2 i3 i4))
      | _, _, _, _ => none
    | _, _ => none
  | .rts =>
    match l, args with
    | none, [a] => ((a.value t here).bind (fieldOf 12 0 4095)).map .rts
    | _, _ => none
  | .and => pair .and
  | .ior => pair .ior
  | .eor => pair .eor
  | .add => pair .add
  | .sub => pair .sub

/-- A 16-bit number outside an instruction (R86). -/
def dataWord (n : Int) : Option Word := fieldOf 16 (-32768) 65535 n

/-- A character between inch marks: its ASCII code in the less significant byte (R86). DESIGN CHOICE
(notes/assumptions/16.md): a character outside ASCII is refused. -/
def charWord (c : Char) : Option Word := if c.toNat < 128 then some (BitVec.ofNat 16 c.toNat) else none

/-- The words of an item at address `here`. -/
def AsmItem.words (t : Symbols) (here : Nat) : AsmItem → Option (List Word)
  | .code l mnemonic args => (instrOf t here l mnemonic args).map (fun i => [encode i])
  | .data n => (dataWord n).map (fun w => [w])
  | .chars cs => cs.mapM charWord
  | .mark _ => some []
  | .name x => ((t.nameValue x).bind dataWord).map (fun w => [w])
  | .following x => (t.nextMark x here).map (fun a => [BitVec.ofNat 16 a])
  | .preceding x => (t.prevMark x here).map (fun a => [BitVec.ofNat 16 a])
  | .break_ => some []
  | .define x _ => if nameKind x = some .constant then some [] else none

/-- Whether an item at address `here` stays within the 16-bit addresses: its words do, and a mark's address is one (R84).
DESIGN CHOICE (notes/assumptions/16.md): what goes past FFFFh is refused. -/
def AsmItem.fits (here : Nat) : AsmItem → Bool
  | .mark _ => decide (here < 65536)
  | item => decide (here + item.size ≤ 65536)

/-- The second pass: the object code of items placed from `here` on. -/
def objectCode (t : Symbols) (here : Nat) (items : List AsmItem) : Option (List Word) :=
  match items with
  | [] => some []
  | item :: rest =>
    if item.fits here then
      (item.words t here).bind
        (fun ws => (objectCode t (here + item.size) rest).map (fun later => ws ++ later))
    else none

/-- Both passes over a source whose object code starts at `start`. -/
def assemble (start : Word) (items : List AsmItem) : Option (List Word) :=
  objectCode (symbolsOf start.toNat items) start.toNat items

/-- The host puts words into main RAM, from an address on, before the run (R55). -/
def State.load (s : State) (a : Word) (words : List Word) : State :=
  match words with
  | [] => s
  | w :: rest => (s.memWrite a w).load (a + 1) rest

end Sys2Proof.Machine
end

