-- ==== Sys2Proof/Machine/Platform.lean ====
section
/-! DEFINITION. What the spec says of single platform requests: the name of request code 0 (R110) and the one handler of
Paverho that the source lists (R109), as an answer of `Platform.cpu`. All other codes are "system-specific" (R100). -/

namespace Sys2Proof.Machine

/-- Request code 0, by convention `SYS_boot`; what it does is left to the system (R110). -/
def sysBoot : BitVec 7 := 0

/-- Paverho's answer to its keyboard request: the scancode if one is ready, else 0 (ASCII NUL). The register's value is
ignored and the run goes on. The request's code number is not given (R109). -/
def keycodeAnswer (scancodeReady : Bool) (keycode : Word) : PlatformAnswer :=
  ⟨some (if scancodeReady then keycode else 0), false⟩

end Sys2Proof.Machine
end

