-- ==== Sys2Proof/Safety.lean ====
section
/-! DEFINITION. What claims about the machine speak of: the invariant of State, what a change leaves alone, and runs. -/

namespace Sys2Proof.Machine

/-- Both memories have their canonical form. -/
def State.inv (s : State) : Bool :=
  Memory.wf s.ram Config.ramWords && Memory.wf s.fs Config.fsDepth

/-- An instruction runs next: the platform has not ended the run and no interrupt event is listed (R176). -/
def State.quiet (s : State) : Bool := !s.runEnded && decide (s.irq = [])

/-- A step is safe when it answers a next state: no fault and no refusal. -/
def safeStep (s : State) : Prop := ∃ t, step s = .next t

/-- Every byte of a memory reads as before, but for the two bytes of each word at the addresses listed. -/
def Memory.sameBut (m m' : Memory) (addresses : List Word) : Prop :=
  ∀ b : Nat, (∀ a ∈ addresses, b ≠ cellOf a ∧ b ≠ cellOf a + 1) → Memory.readByte m' b = Memory.readByte m b

/-- SFP, IFP and CFK are as before (R13). -/
def State.sameHidden (s t : State) : Prop := t.sfp = s.sfp ∧ t.ifp = s.ifp ∧ t.cfk = s.cfk

/-- Nothing has passed between machine and platform. -/
def State.sameOutside (s t : State) : Prop :=
  t.requests = s.requests ∧ t.runEnded = s.runEnded ∧ t.irq = s.irq

/-- Besides the PC, only frame-store words at the addresses listed have changed: every other frame-store byte, every
byte of main RAM, the hidden registers and what has passed to the platform are as before. -/
def State.changesOnlyFs (s t : State) (addresses : List Word) : Prop :=
  Memory.sameBut s.fs t.fs addresses ∧ Memory.sameBut s.ram t.ram [] ∧ s.sameHidden t ∧ s.sameOutside t

/-- Instructions executed one after the other, without fetch: none where one does not answer a next state. -/
def execAll (is : List Instr) (s : State) : Option State :=
  match is with
  | [] => some s
  | i :: rest =>
    match exec i s with
    | .next t => execAll rest t
    | .fault _ => none
    | .refused _ => none

/-- `k` steps: none where one does not answer a next state. -/
def steps (k : Nat) (s : State) : Option State :=
  match k with
  | 0 => some s
  | k + 1 =>
    match step s with
    | .next t => steps k t
    | .fault _ => none
    | .refused _ => none

end Sys2Proof.Machine
end

