-- ==== Sys2Proof/Certificates/Slice0/Obligations.lean ====
section
/-! DEFINITION. The statements about Sonne-16, one Prop each; OBLIGATIONS.json lists them with the rules they
formalise. -/

open Sys2Proof Sys2Proof.Machine

/-- For every state and every 4-bit selector sel, the register that sel selects lies at ifp + sel if sel[3:2] = 00, at
sfp + 9 + the slot of CFK that sel[1:0] counts from the high end if sel[3:2] = 01, and at sfp + sel[2:0] if sel[3] =
1, modulo 2^16. (Stated: R24.) -/
def Obligations.SelectorResolvesToFrameWord : Prop :=
  ∀ (s : State) (sel : BitVec 4),
    s.ref (regOfSelector sel) =
      if sel.extractLsb' 2 2 = 0 then s.ifp + sel.zeroExtend 16
      else if sel.extractLsb' 2 2 = 1 then
        s.sfp + 9 + ((s.cfk >>> (3 * (3 - (sel.extractLsb' 0 2).toNat))).setWidth 3 : BitVec 3).zeroExtend 16
      else s.sfp + (sel.extractLsb' 0 3).zeroExtend 16

/-- For all registers x, y, every value v and every state s: reading x gives the frame-store word at ref x; after
writing v to x, y reads v if y names the same frame-store word as x and as before if not; no other byte of the frame
store, no byte of main RAM, not the PC, no hidden register and nothing passed to the platform changes. The spec
marks R25 as its own inference from these rules. (Derived from R18, R22, R24.) -/
def Obligations.RegisterWriteIsSeenThroughEveryName : Prop :=
  ∀ (s : State) (x y : Reg) (v : Word),
    s.readReg x = s.readFs (s.ref x) ∧
      (s.writeReg x v).readReg y = (if s.ref y = s.ref x then v else s.readReg y) ∧
      s.changesOnlyFs (s.writeReg x v) [s.ref x] ∧ (s.writeReg x v).pc = s.pc

/-- For every state and all addresses a, c and values v: after the main-RAM word at a is set to v, the word at c reads v
if c = a and as before otherwise, and every frame-store word reads as before; after the frame-store word at a is set
to v, every main-RAM word reads as before, and the frame-store word at c reads v if c = a and as before otherwise.
That frame store and main RAM are separate is the spec's own decision D2, and that a read gives the latest write is
its decision D12 (both log entry 17). (Derived from R50, R18, R41.) -/
def Obligations.MainRamReadAfterWrite : Prop :=
  ∀ (s : State) (a c v : Word),
    (s.memWrite a v).memRead c = (if c = a then v else s.memRead c) ∧
      (s.memWrite a v).readFs c = s.readFs c ∧ (s.writeFs a v).memRead c = s.memRead c ∧
      (s.writeFs a v).readFs c = (if c = a then v else s.readFs c)

/-- If two memories have the canonical form (the model's representation, log entry 13) for some number of words and
every byte reads the same in both, they are equal. (Derived from 20_memory.md R40, 10_state.md R18.) -/
def Obligations.CanonicalMemoriesReadingAlikeAreEqual : Prop :=
  ∀ (m m' : Memory) (words : Nat), Memory.wf m words = true → Memory.wf m' words = true →
    (∀ b : Nat, Memory.readByte m b = Memory.readByte m' b) → m = m'

/-- Every 16-bit word decodes to an instruction, which is well formed and whose encoding is that very word: no word is
refused and no bit of a word is dropped. The spec marks R72 as its own inference from R70. (Derived from
30_encoding.md R70, 30_encoding.md R71.) -/
def Obligations.EveryWordIsOneInstruction : Prop :=
  ∀ iw : Word, ∃ i : Instr, decode iw = .ok i ∧ i.wellFormed = true ∧ encode i = iw

/-- For every well-formed instruction of all four modes, with every operand at every value the encoding admits, the
decoder reads that instruction from its encoding. (Derived from 30_encoding.md R61, 30_encoding.md R63,
30_encoding.md R70.) -/
def Obligations.DecodeOfEncodeIsTheInstruction : Prop :=
  ∀ i : Instr, i.wellFormed = true → decode (encode i) = .ok i

/-- If a word decodes to an instruction, then among the 24 rows of the operation code matrix (masks F080h and F000h)
exactly the row of that instruction's mnemonic covers the word. (Derived from R70, R71.) -/
def Obligations.DecodingFollowsOpcodeTable : Prop :=
  ∀ (iw : Word) (i : Instr) (m : Mnemonic), decode iw = .ok i → ((opcodeRow m).covers iw = true ↔ m = i.mnemonic)

/-- 0000h decodes to CPU with L = D and request code 0, FFFFh to SUB with L = R2 = R1 = L7; 298Ah to L1 LTL 10, 49FAh to
L1 LTR L2 -1, 8AFAh to L2 GET L2 -1, 929Ch to JSR with key 29Ch. The spec derives these words itself from R70.
(Derived from 30_encoding.md R61, 30_encoding.md R70.) -/
def Obligations.WordsWrittenFromTheSpecDecode : Prop :=
  decode 0x0000 = .ok (.cpu .d 0) ∧ decode 0xFFFF = .ok (.sub .l7 .l7 .l7) ∧ decode 0x298A = .ok (.ltl .l1 10) ∧
    decode 0x49FA = .ok (.ltr .l1 .l2 7) ∧ decode 0x8AFA = .ok (.get .l2 .l2 0xF) ∧ decode 0x929C = .ok (.jsr 0x29C)

/-- If the run has not ended and the word at the PC decodes to i, then step is exec of i: at the same state if no event
is listed, and at the state with the event taken off if the next event is quiet. (How interrupt events are listed is
the model's choice, log entry 6.) That no step is taken after the end of a run is the model's choice (log entry 5).
(Derived from R10, R176.) -/
def Obligations.StepRunsTheDecodedInstruction : Prop :=
  ∀ (s : State) (i : Instr), s.runEnded = false → decode s.fetch = .ok i →
    (s.irq = [] → step s = exec i s) ∧
      ∀ rest : List PlatformEvent, s.irq = .quiet :: rest → step s = exec i (s.setIrq rest)

/-- For every instruction and every state, exec answers a next state: no instruction raises an exception, faults or is
refused. That CPU completes whatever the platform answers, the end of the run included, is the model's choice (log
entries 5 and 7). (Derived from R170, R171.) -/
def Obligations.NoInstructionTraps : Prop :=
  ∀ (i : Instr) (s : State), ∃ t : State, exec i s = .next t

/-- From every state whose run has not ended, whatever word stands at the PC and whatever event is listed, step answers
a next state. How interrupt events are listed, and that each takes a step of its own, is the model's choice (log
entry 6); that only the platform ends a run, and that the model holds this as a flag, is the spec's decision D16 and
the model's choice (log entry 5). (Derived from R72, R170, R173, R174, R176, R185.) -/
def Obligations.RunningMachineAlwaysSteps : Prop :=
  ∀ s : State, s.runEnded = false → safeStep s

/-- From every state whose run the platform has ended, step answers the fault runEnded. That the machine then stops in
this form is the model's choice (log entry 5). (Derived from R185.) -/
def Obligations.NoStepAfterRunEnded : Prop :=
  ∀ s : State, s.runEnded = true → step s = .fault .runEnded

/-- For every state whose main RAM and frame store have the canonical form (addresses strictly rising and inside 65536
words, no listed byte equal to what an unlisted one reads as), if step answers a next state, that state's memories
have it too. The canonical list form is the model's own representation (log entry 13), and so are the 65536 words of
each memory (log entries 8 and 9): the spec's rules say only which memories there are. (Derived from 10_state.md
R18, 20_memory.md R40.) -/
def Obligations.StepKeepsMemoriesCanonical : Prop :=
  ∀ s t : State, s.inv = true → step s = .next t → t.inv = true

/-- The state after reset has the invariant that every step keeps. The spec leaves the contents of both memories at
reset as parameters: that reset lists nothing, and so has the canonical form, is the model's choice (log entries 2,
3 and 13). (Derived from 70_reset_and_hazards.md R200.) -/
def Obligations.ResetMemoriesAreCanonical : Prop :=
  State.reset.inv = true

/-- After reset the program counter is 0000h, and the first fetch reads main-RAM address 0000h. (Stated: R31.) -/
def Obligations.ResetStartsAtAddressZero : Prop :=
  State.reset.pc = 0x0000 ∧ State.reset.fetch = State.reset.memRead 0x0000

/-- The spec leaves these reset values open; the model's choices (log entries 1, 2 and 3) are SFP = FF00h, IFP = 0000h,
CFK = 000h, every main-RAM word and every frame-store word 0000h; the run has not ended and no event is listed
(entries 5, 6). (Derived from R32, R33, R34, R200.) -/
def Obligations.ResetValuesOfTheModelsChoice : Prop :=
  State.reset.sfp = 0xFF00 ∧ State.reset.ifp = 0x0000 ∧ State.reset.cfk = 0x000 ∧
    (∀ a : Word, State.reset.memRead a = 0x0000 ∧ State.reset.readFs a = 0x0000) ∧
    State.reset.runEnded = false ∧ State.reset.irq = []

/-- From the reset state the first step is the CPU request with code 0 (SYS_boot) and register D. That main RAM is zero
at reset is the model's choice (log entry 3). That no interrupt event is listed at reset is the spec's default for
its open parameter (log entry 6). (Derived from R110, R201.) -/
def Obligations.FirstStepFromResetIsTheBootRequest : Prop :=
  step State.reset = exec (.cpu .d sysBoot) State.reset

/-- For every register l, code and state, CPU answers a next state: the request (code, x[L]) is added to what was handed
over; with the platform's answer to (requests so far, code, x[L]), whatever it is, x[L] receives the result if there
is one and no frame-store byte changes if there is none; the run is ended only if it was or the answer says so; the
PC advances by 1; no other frame-store byte, no byte of main RAM, no hidden register and no listed event changes.
That CPU changes no byte of main RAM, no hidden register and no frame-store word but that of L is the model's
choice, unsafe, after the spec's decision D8 (U17, log entry 7); that it changes no listed event is the model's
choice (log entry 6); the record of requests is the model's own (log entry 4), and that the answer may end the run
is the spec's decision D16 (log entry 5). (Derived from R100, R185.) -/
def Obligations.CpuHandsTheRequestToThePlatform : Prop :=
  ∀ (l : Reg) (code : BitVec 7) (s : State), ∃ t : State, exec (.cpu l code) s = .next t ∧
    t.pc = s.pc + 1 ∧ t.requests = ⟨code, s.readReg l⟩ :: s.requests ∧
    Memory.sameBut s.ram t.ram [] ∧ s.sameHidden t ∧ t.irq = s.irq ∧
    t.runEnded = (s.runEnded || (Config.platformCpu s.requests code (s.readReg l)).endsRun) ∧
    match (Config.platformCpu s.requests code (s.readReg l)).result with
    | none => Memory.sameBut s.fs t.fs []
    | some v => t.readReg l = v ∧ Memory.sameBut s.fs t.fs [s.ref l]

/-- When the platform's answer to a CPU request is Paverho's keyboard answer, the selected register receives the
scancode if one is ready and 0 if not; no other frame-store byte, no byte of main RAM and no hidden register changes
and the run goes on as before. That nothing else changes is the model's choice after the spec's decision D8 (log
entry 7). (Derived from R109.) -/
def Obligations.KeyboardAnswerReachesTheRegister : Prop :=
  ∀ (s : State) (l : Reg) (code : BitVec 7) (ready : Bool) (keycode : Word),
    (s.transfer l code (keycodeAnswer ready keycode)).readReg l = (if ready = true then keycode else 0) ∧
      Memory.sameBut s.fs (s.transfer l code (keycodeAnswer ready keycode)).fs [s.ref l] ∧
      Memory.sameBut s.ram (s.transfer l code (keycodeAnswer ready keycode)).ram [] ∧
      s.sameHidden (s.transfer l code (keycodeAnswer ready keycode)) ∧
      (s.transfer l code (keycodeAnswer ready keycode)).runEnded = s.runEnded

/-- For every register, literal and state SET answers a next state: for literal 7Fh, x[L] is the word at pc + 1 and the
PC pc + 2; else x[L] is the zero-extended literal and the PC pc + 1. Only the frame-store word of L changes besides
the PC. (Stated: R101.) -/
def Obligations.SetLoadsALiteral : Prop :=
  ∀ (l : Reg) (seven : BitVec 7) (s : State), ∃ t : State, exec (.set l seven) s = .next t ∧
    s.changesOnlyFs t [s.ref l] ∧
    if seven = 0x7F then t.readReg l = s.memRead (s.pc + 1) ∧ t.pc = s.pc + 2
    else t.readReg l = seven.zeroExtend 16 ∧ t.pc = s.pc + 1

/-- For every register, literal and state, RBF answers the state with only the PC changed: pc plus the sign-extended
literal if x[L] is zero, else pc + 1; RBT the same with the condition inverted. (Stated: R102, R103.) -/
def Obligations.BranchesTestTheRegisterForZero : Prop :=
  ∀ (l : Reg) (seven : BitVec 7) (s : State),
    exec (.rbf l seven) s =
        .next { s with pc := if s.readReg l = 0 then s.pc + seven.signExtend 16 else s.pc + 1 } ∧
      exec (.rbt l seven) s =
        .next { s with pc := if s.readReg l ≠ 0 then s.pc + seven.signExtend 16 else s.pc + 1 }

/-- For every register, literal and state DTC answers a next state: the PC is the word at pc + 1, D the zero-extended
literal, x[L] the address of the DTC word unless L names the word of D, where the literal remains. Besides the PC
only the frame-store words of L and D change. (Stated: R104.) -/
def Obligations.DtcStoresPcAndParameter : Prop :=
  ∀ (l : Reg) (seven : BitVec 7) (s : State), ∃ t : State, exec (.dtc l seven) s = .next t ∧
    t.pc = s.memRead (s.pc + 1) ∧ t.readReg .d = seven.zeroExtend 16 ∧
    t.readReg l = (if s.ref l = s.ref .d then seven.zeroExtend 16 else s.pc) ∧
    s.changesOnlyFs t [s.ref l, s.ref .d]

/-- For every register, literal and state each of LTL, EQL, GTL answers a next state with PC pc + 1 and D = 1 if the
unsigned value of x[L] is less than, equal to, greater than the literal, else 0. Besides the PC only the frame-store
word of D changes. That the comparison is unsigned is the spec's own decision D11 (log entry 12). (Derived from
R105, R106, R107.) -/
def Obligations.LiteralComparisonsSetD : Prop :=
  ∀ (l : Reg) (seven : BitVec 7) (s : State),
    (∃ t : State, exec (.ltl l seven) s = .next t ∧ t.pc = s.pc + 1 ∧ s.changesOnlyFs t [s.ref .d] ∧
      t.readReg .d = if (s.readReg l).toNat < seven.toNat then 1 else 0) ∧
    (∃ t : State, exec (.eql l seven) s = .next t ∧ t.pc = s.pc + 1 ∧ s.changesOnlyFs t [s.ref .d] ∧
      t.readReg .d = if (s.readReg l).toNat = seven.toNat then 1 else 0) ∧
    (∃ t : State, exec (.gtl l seven) s = .next t ∧ t.pc = s.pc + 1 ∧ s.changesOnlyFs t [s.ref .d] ∧
      t.readReg .d = if (s.readReg l).toNat > seven.toNat then 1 else 0)

/-- For all registers, literals and states JMP answers a next state: the PC is x[R1] before the instruction plus the
zero-extended literal, x[L] is the address of the JMP word. Besides the PC only the frame-store word of L changes.
That R1 is read before L is written, where they name one word, is the spec's own decision D14 (log entry 12).
(Derived from R120.) -/
def Obligations.JmpLinksAndJumps : Prop :=
  ∀ (l r1 : Reg) (lor : BitVec 3) (s : State), ∃ t : State, exec (.jmp l r1 lor) s = .next t ∧
    t.pc = s.readReg r1 + lor.zeroExtend 16 ∧ t.readReg l = s.pc ∧ s.changesOnlyFs t [s.ref l]

/-- For all registers, literals and states each of LTR, EQR, GTR answers a next state with PC pc + 1 and D = 1 if the
unsigned value of x[L] is less than, equal to, greater than x[R1] plus the sign-extended literal modulo 2^16, else
0. Besides the PC only the frame-store word of D changes. That the sum is truncated and the comparison unsigned is
the spec's own decision D11 (log entry 12). (Derived from R121, R122, R123.) -/
def Obligations.RegisterComparisonsSetD : Prop :=
  ∀ (l r1 : Reg) (lor : BitVec 3) (s : State),
    (∃ t : State, exec (.ltr l r1 lor) s = .next t ∧ t.pc = s.pc + 1 ∧ s.changesOnlyFs t [s.ref .d] ∧
      t.readReg .d = if (s.readReg l).toNat < (s.readReg r1 + lor.signExtend 16).toNat then 1 else 0) ∧
    (∃ t : State, exec (.eqr l r1 lor) s = .next t ∧ t.pc = s.pc + 1 ∧ s.changesOnlyFs t [s.ref .d] ∧
      t.readReg .d = if (s.readReg l).toNat = (s.readReg r1 + lor.signExtend 16).toNat then 1 else 0) ∧
    (∃ t : State, exec (.gtr l r1 lor) s = .next t ∧ t.pc = s.pc + 1 ∧ s.changesOnlyFs t [s.ref .d] ∧
      t.readReg .d = if (s.readReg l).toNat > (s.readReg r1 + lor.signExtend 16).toNat then 1 else 0)

/-- For all registers, literals and states LOD answers a next state: x[L] is the main-RAM word at the old x[R1] plus the
zero-extended literal modulo 2^16, the PC pc + 1. Besides the PC only the frame-store word of L changes. (Stated:
R124.) -/
def Obligations.LodLoadsAWord : Prop :=
  ∀ (l r1 : Reg) (lor : BitVec 3) (s : State), ∃ t : State, exec (.lod l r1 lor) s = .next t ∧
    t.pc = s.pc + 1 ∧ t.readReg l = s.memRead (s.readReg r1 + lor.zeroExtend 16) ∧ s.changesOnlyFs t [s.ref l]

/-- For all registers, literals and states STO answers a next state: with ea = OFFS, that is x[R1] plus the zero-
extended literal modulo 2^16, the main-RAM word at ea is x[L], every byte of main RAM outside that word and every
byte of the frame store reads as before, the PC is pc + 1, the hidden registers and what passed to the platform are
unchanged. (Stated: R125.) -/
def Obligations.StoStoresAWord : Prop :=
  ∀ (l r1 : Reg) (lor : BitVec 3) (s : State), ∃ t : State, exec (.sto l r1 lor) s = .next t ∧
    t.pc = s.pc + 1 ∧ s.offs r1 lor = s.readReg r1 + lor.zeroExtend 16 ∧
    t.memRead (s.offs r1 lor) = s.readReg l ∧ Memory.sameBut s.ram t.ram [s.offs r1 lor] ∧
    Memory.sameBut s.fs t.fs [] ∧ s.sameHidden t ∧ s.sameOutside t

/-- For all registers, counts and states SHL answers a next state: x[L] is the old x[R1] times 2^count modulo 2^16, the
PC pc + 1. Besides the PC only the frame-store word of L changes; so x[R1] keeps its value unless it is the same
word. (Stated: R126.) -/
def Obligations.ShlMultipliesByAPowerOfTwo : Prop :=
  ∀ (l r1 : Reg) (count : Nat) (s : State), ∃ t : State, exec (.shl l r1 count) s = .next t ∧
    t.pc = s.pc + 1 ∧ (t.readReg l).toNat = (s.readReg r1).toNat * 2 ^ count % 2 ^ 16 ∧
    s.changesOnlyFs t [s.ref l]

/-- For all registers, counts and states SHR answers a next state: x[L] is the old unsigned x[R1] divided by 2^count
(zero fill, SHR_FILL = zero), the PC pc + 1. Besides the PC only the frame-store word of L changes. Zero fill is the
spec's resolution C4 of split evidence, the parameter SHR_FILL (log entry 10). (Derived from 41_mode2_offs.md R127.) -/
def Obligations.ShrFillsWithZero : Prop :=
  ∀ (l r1 : Reg) (count : Nat) (s : State), ∃ t : State, exec (.shr l r1 count) s = .next t ∧
    t.pc = s.pc + 1 ∧ (t.readReg l).toNat = (s.readReg r1).toNat / 2 ^ count ∧ s.changesOnlyFs t [s.ref l]

/-- For all registers, literals and states GET answers a next state: x[L] is the old x[R1] plus the literal read as a
number from -8 to 7, modulo 2^16, the PC pc + 1. Besides the PC only the frame-store word of L changes. (Stated:
R128.) -/
def Obligations.GetAddsASignedLiteral : Prop :=
  ∀ (l r1 : Reg) (r2 : BitVec 4) (s : State), ∃ t : State, exec (.get l r1 r2) s = .next t ∧
    t.pc = s.pc + 1 ∧ t.readReg l = BitVec.ofInt 16 ((s.readReg r1).toNat + r2.toInt) ∧ s.changesOnlyFs t [s.ref l]

/-- For every key and state JSR answers a next state: SFP is 9 lower, CFK is the key, IFP unchanged; the new frame's FK
holds the old CFK zero-extended and its R holds pc + 2; the PC is the word at pc + 1, or D if that word is zero.
Only those two frame-store words change; main RAM and what passed to the platform are unchanged. That D is read
before the two frame words are written, where they meet, is the spec's own decision D14, which the sources do not
settle (U8), and that the saved key is zero-extended is its decision D17 (both log entry 12); that SFP and the PC
wrap modulo 2^16 is its decisions D3 and D4 (log entries 8 and 17). (Derived from R140, R17.) -/
def Obligations.JsrMakesAFrame : Prop :=
  ∀ (twelve : FrameKey) (s : State), ∃ t : State, exec (.jsr twelve) s = .next t ∧
    t.sfp = s.sfp - 9 ∧ t.cfk = twelve ∧ t.ifp = s.ifp ∧
    t.readFs (s.sfp - 9 + 8) = s.cfk.zeroExtend 16 ∧ t.readFs (s.sfp - 9) = s.pc + 2 ∧
    t.pc = (if s.memRead (s.pc + 1) ≠ 0 then s.memRead (s.pc + 1) else s.readReg .d) ∧
    Memory.sameBut s.fs t.fs [s.sfp - 9 + 8, s.sfp - 9] ∧ Memory.sameBut s.ram t.ram [] ∧ s.sameOutside t

/-- For every code and state RTS answers a next state: D is the zero-extended code, the PC is the old R, CFK the low 12
bits of the old FK word, SFP 9 higher, IFP unchanged. Only the frame-store word of D changes; main RAM and what
passed to the platform are unchanged. That R and FK are read from the frame being left is the spec's resolution C8,
that the low 12 bits of FK are kept its decision D17, and that both are read before D is written, where they meet,
its decision D14 (U8) (all log entry 12); that SFP wraps modulo 2^16 is its decision D3 (log entry 8). (Derived from
R141, R17.) -/
def Obligations.RtsLeavesAFrame : Prop :=
  ∀ (twelve : BitVec 12) (s : State), ∃ t : State, exec (.rts twelve) s = .next t ∧
    t.readReg .d = twelve.zeroExtend 16 ∧ t.pc = s.readReg .r ∧
    t.cfk = (s.readFs (s.sfp + 8)).setWidth 12 ∧ t.sfp = s.sfp + 9 ∧ t.ifp = s.ifp ∧
    Memory.sameBut s.fs t.fs [s.ref .d] ∧ Memory.sameBut s.ram t.ram [] ∧ s.sameOutside t

/-- For all registers and states each of AND, IOR, EOR answers a next state in which every bit of x[L] is the and, or,
exclusive or of that bit of the old x[R2] and x[R1], with PC pc + 1. Besides the PC only the frame-store word of L
changes. (Stated: R150, R151, R152.) -/
def Obligations.LogicInstructionsWorkBitByBit : Prop :=
  ∀ (l r2 r1 : Reg) (s : State),
    (∃ t : State, exec (.and l r2 r1) s = .next t ∧ t.pc = s.pc + 1 ∧ s.changesOnlyFs t [s.ref l] ∧
      ∀ n : Nat, (t.readReg l).getLsbD n = ((s.readReg r2).getLsbD n && (s.readReg r1).getLsbD n)) ∧
    (∃ t : State, exec (.ior l r2 r1) s = .next t ∧ t.pc = s.pc + 1 ∧ s.changesOnlyFs t [s.ref l] ∧
      ∀ n : Nat, (t.readReg l).getLsbD n = ((s.readReg r2).getLsbD n || (s.readReg r1).getLsbD n)) ∧
    (∃ t : State, exec (.eor l r2 r1) s = .next t ∧ t.pc = s.pc + 1 ∧ s.changesOnlyFs t [s.ref l] ∧
      ∀ n : Nat, (t.readReg l).getLsbD n = ((s.readReg r2).getLsbD n ^^ (s.readReg r1).getLsbD n))

/-- For all registers and states ADD answers a next state with PC pc + 1: with n the exact sum of the old x[R2] and
x[R1], D is n div 2^16, x[L] is n mod 2^16 unless L names the word of D, where the carry remains. Besides the PC
only the frame-store words of L and D change. (Stated: R153.) -/
def Obligations.AddStoresSumThenCarry : Prop :=
  ∀ (l r2 r1 : Reg) (s : State), ∃ t : State, exec (.add l r2 r1) s = .next t ∧
    t.pc = s.pc + 1 ∧ (t.readReg .d).toNat = ((s.readReg r2).toNat + (s.readReg r1).toNat) / 2 ^ 16 ∧
    (t.readReg l).toNat =
      (if s.ref l = s.ref .d then ((s.readReg r2).toNat + (s.readReg r1).toNat) / 2 ^ 16
        else ((s.readReg r2).toNat + (s.readReg r1).toNat) % 2 ^ 16) ∧
    s.changesOnlyFs t [s.ref l, s.ref .d]

/-- For all registers and states SUB answers a next state with PC pc + 1: D is 1 exactly when the old x[R1] is not zero
and x[R2] is at least x[R1] (unsigned), else 0; x[L] is the old x[R2] - x[R1] modulo 2^16 unless L names the word of
D, where the carry remains. Besides the PC only the frame-store words of L and D change. The operand order is the
spec's resolution C5, the parameter SUB_ORDER (log entry 11); D = 0 for a zero subtrahend is its resolution C19 (log
entry 12). (Derived from 43_mode4_pair.md R154.) -/
def Obligations.SubStoresDifferenceThenCarry : Prop :=
  ∀ (l r2 r1 : Reg) (s : State), ∃ t : State, exec (.sub l r2 r1) s = .next t ∧
    t.pc = s.pc + 1 ∧
    t.readReg .d = (if s.readReg r1 ≠ 0 ∧ (s.readReg r1).toNat ≤ (s.readReg r2).toNat then 1 else 0) ∧
    t.readReg l =
      (if s.ref l = s.ref .d then
        (if s.readReg r1 ≠ 0 ∧ (s.readReg r1).toNat ≤ (s.readReg r2).toNat then 1 else 0)
        else s.readReg r2 - s.readReg r1) ∧
    s.changesOnlyFs t [s.ref l, s.ref .d]

/-- Every instruction from every state answers a next state in which IFP is unchanged, SFP is 9 lower for JSR, 9 higher
for RTS and unchanged for every other instruction, and CFK is the key for JSR, the low 12 bits of the FK word of the
frame being left for RTS and unchanged for every other instruction. That SFP wraps modulo 2^16 is the spec's own
decision D3 (log entry 8). That CPU leaves SFP, IFP and CFK alone is the model's choice after the spec's decision D8
(log entry 7); that RTS reads FK of the frame being left is the spec's resolution C8, and that it keeps the low 12
bits its decision D17 (log entry 12). (Derived from R15, R17, R140, R141, R174.) -/
def Obligations.OnlyCallAndReturnMoveHiddenRegisters : Prop :=
  ∀ (i : Instr) (s : State), ∃ t : State, exec i s = .next t ∧ t.ifp = s.ifp ∧
    t.sfp = s.sfp - (if i.mnemonic = .jsr then 9 else 0) + (if i.mnemonic = .rts then 9 else 0) ∧
    (i.mnemonic ≠ .jsr → i.mnemonic ≠ .rts → t.cfk = s.cfk) ∧
    (∀ key : FrameKey, i = .jsr key → t.cfk = key) ∧
    (i.mnemonic = .rts → t.cfk = (s.readFs (s.sfp + 8)).setWidth 12)

/-- Every instruction from every state answers a next state; unless it is a STO, every byte of main RAM reads as before.
That CPU changes no byte of main RAM is the model's choice, unsafe, after the spec's decision D8 (U17, log entry 7);
that no register write reaches main RAM is the spec's decision D2 (log entry 17). (Derived from R40, R45.) -/
def Obligations.OnlyStoWritesMainRam : Prop :=
  ∀ (i : Instr) (s : State), ∃ t : State, exec i s = .next t ∧
    (i.mnemonic ≠ .sto → Memory.sameBut s.ram t.ram [])

/-- Every instruction from every state answers a next state in which the listed events are unchanged; unless it is a CPU
instruction, no request is added and whether the run has ended is unchanged. That a run ends only by the answer to a
CPU request is the spec's decision D16 (log entry 5), the record of requests is the model's own (log entry 4), and
that no instruction, CPU included, changes the listed events is the model's choice (log entry 6). (Derived from R42,
R185.) -/
def Obligations.OnlyCpuReachesThePlatform : Prop :=
  ∀ (i : Instr) (s : State), ∃ t : State, exec i s = .next t ∧ t.irq = s.irq ∧
    (i.mnemonic ≠ .cpu → s.sameOutside t)

/-- If a STO runs at a quiet boundary, the step answers a next state; if its address is pc + 1 the next fetch reads
x[L], and if it is pc + 2 the next instruction's second word reads x[L]. That a stored word is seen by the very next
fetch and second-word read is the spec's own decision D12 (log entry 17); the quiet boundary is the model's (log
entry 6). (Derived from R53, R207.) -/
def Obligations.StoredWordIsSeenByTheNextInstruction : Prop :=
  ∀ (s : State) (l r1 : Reg) (lor : BitVec 3), s.quiet = true → decode s.fetch = .ok (.sto l r1 lor) →
    ∃ t : State, step s = .next t ∧ (s.offs r1 lor = s.pc + 1 → t.fetch = s.readReg l) ∧
      (s.offs r1 lor = s.pc + 2 → t.nextWord = s.readReg l)

/-- If JSR takes s to t and u is any state with t's SFP whose current frame still holds t's R and FK words, then RTS at
u answers a next state whose PC is the address after the call, whose SFP is the caller's and whose frame key is the
caller's. That RTS reads R and FK of the frame being left is the spec's resolution C8, and that the saved key keeps
its 12 bits its decision D17 (log entry 12). (Derived from R140, R141, R142.) -/
def Obligations.ReturnRestoresTheCaller : Prop :=
  ∀ (s t u : State) (key code : BitVec 12), exec (.jsr key) s = .next t → u.sfp = t.sfp →
    u.readFs u.sfp = t.readFs t.sfp → u.readFs (u.sfp + 8) = t.readFs (t.sfp + 8) →
    ∃ v : State, exec (.rts code) u = .next v ∧ v.pc = s.pc + 2 ∧ v.sfp = s.sfp ∧ v.cfk = s.cfk

/-- For every state and any four registers of its subroutine frame (R, L1 to L7), a JSR with the frame key of their
indices answers a next state in which A1, A2, A3, A4 name the frame-store words of those four registers of the
caller, and D, E, SP, DP name the same words as before. R142 is marked by the spec as its own inference; that SFP
wraps modulo 2^16 is its decision D3 (log entry 8). (Derived from R22, R142.) -/
def Obligations.CalleeAliasesNameCallerRegisters : Prop :=
  ∀ (s : State) (x1 x2 x3 x4 : Reg) (k1 k2 k3 k4 : BitVec 3), frameIndex x1 = some k1 → frameIndex x2 = some k2 →
    frameIndex x3 = some k3 → frameIndex x4 = some k4 →
    ∃ t : State, exec (.jsr (frameKey k1 k2 k3 k4)) s = .next t ∧
      t.ref .a1 = s.ref x1 ∧ t.ref .a2 = s.ref x2 ∧ t.ref .a3 = s.ref x3 ∧ t.ref .a4 = s.ref x4 ∧
      t.ref .d = s.ref .d ∧ t.ref .e = s.ref .e ∧ t.ref .sp = s.ref .sp ∧ t.ref .dp = s.ref .dp

/-- From every state n JSR instructions in a row, with any keys, lead to a state whose SFP is 9n lower (modulo 2^16);
and from every state whose run has not ended and whose next m events are interrupt requests, m steps lead to a state
whose IFP is 4m higher (modulo 2^16). That both wrap modulo 2^16 is the spec's own decision D3 (log entry 8); how
interrupt requests are listed is the model's choice (log entry 6). (Derived from R26, R140, R173.) -/
def Obligations.NestedCallsGrowDownNestedInterruptsGrowUp : Prop :=
  (∀ (keys : List FrameKey) (s : State), ∃ t : State, execAll (keys.map Instr.jsr) s = some t ∧
      t.sfp = s.sfp - BitVec.ofNat 16 (9 * keys.length)) ∧
    ∀ (handlers : List Word) (rest : List PlatformEvent) (s : State), s.runEnded = false →
      s.irq = handlers.map PlatformEvent.request ++ rest →
      ∃ t : State, steps handlers.length s = some t ∧ t.ifp = s.ifp + BitVec.ofNat 16 (4 * handlers.length)

/-- If the run has not ended and the next event is an interrupt request, step answers a next state with IFP 4 higher,
the PC the one the event names, SFP and CFK unchanged, every byte of the frame store and of main RAM as before (so
D, E, SP, DP name the four words above and R, L1 to L7, A1 to A4 the interrupted code's), and the event taken off.
How requests are listed, and that the event names the PC to go on at, is the model's choice (log entry 6). (Derived
from R173, R176.) -/
def Obligations.InterruptEntryBanksD : Prop :=
  ∀ (s : State) (handler : Word) (rest : List PlatformEvent), s.runEnded = false →
    s.irq = .request handler :: rest →
    ∃ t : State, step s = .next t ∧ t.pc = handler ∧ t.ifp = s.ifp + 4 ∧ t.sfp = s.sfp ∧ t.cfk = s.cfk ∧
      Memory.sameBut s.fs t.fs [] ∧ Memory.sameBut s.ram t.ram [] ∧ t.readReg .d = s.readFs (s.ifp + 4) ∧
      t.requests = s.requests ∧ t.runEnded = false ∧ t.irq = rest

/-- If the run has not ended and the next event is the completion of an interrupt, step answers a next state with IFP 4
lower, the PC the one the event names, SFP and CFK unchanged, every byte of the frame store and of main RAM as
before, and the event taken off. How completions are listed, and that the event names the PC to go on at, is the
model's choice (log entry 6). (Derived from R174, R176.) -/
def Obligations.InterruptCompletionUnbanksD : Prop :=
  ∀ (s : State) (resume : Word) (rest : List PlatformEvent), s.runEnded = false →
    s.irq = .handled resume :: rest →
    ∃ t : State, step s = .next t ∧ t.pc = resume ∧ t.ifp = s.ifp - 4 ∧ t.sfp = s.sfp ∧ t.cfk = s.cfk ∧
      Memory.sameBut s.fs t.fs [] ∧ Memory.sameBut s.ram t.ram [] ∧ t.readReg .d = s.readFs (s.ifp - 4) ∧
      t.requests = s.requests ∧ t.runEnded = false ∧ t.irq = rest

/-- From every state whose run has not ended and whose next events are m interrupt requests followed by m completions,
2m steps lead to a state with the same IFP, SFP and CFK in which every register reads as before, with the later
events left. How events are listed is the model's choice (log entry 6). That IFP wraps modulo 2^16 is the spec's
decision D3 (log entry 8). (Derived from R173, R174, R178.) -/
def Obligations.NestedInterruptsUnwind : Prop :=
  ∀ (handlers resumes : List Word) (rest : List PlatformEvent) (s : State), handlers.length = resumes.length →
    s.runEnded = false →
    s.irq = handlers.map PlatformEvent.request ++ (resumes.map PlatformEvent.handled ++ rest) →
    ∃ t : State, steps (handlers.length + resumes.length) s = some t ∧ s.sameHidden t ∧ t.irq = rest ∧
      ∀ x : Reg, t.readReg x = s.readReg x

/-- From every state with no event listed, after any number of steps that answer next states, IFP is unchanged and still
no event is listed. How events are listed is the model's choice (log entry 6). That CPU leaves IFP alone is the
model's choice after the spec's decision D8 (log entry 7). (Derived from R176.) -/
def Obligations.WithoutRequestsIfpNeverMoves : Prop :=
  ∀ (k : Nat) (s t : State), s.irq = [] → steps k s = some t → t.ifp = s.ifp ∧ t.irq = []

/-- If the distance from the branch word's address to a label's address fits the field and the PC is the branch word's
address, then RBF with the assembled field on a zero register, and RBT on a nonzero one, answer a next state whose
PC is the label's address. That the PC wraps modulo 2^16 is the spec's decision D4 (log entry 17). (Derived from
R85, R102, R103.) -/
def Obligations.AssembledBranchReachesItsLabel : Prop :=
  ∀ (here target : Nat) (l : Reg) (seven : BitVec 7) (s : State), branchField ((target : Int) - (here : Int)) = some seven →
    s.pc = BitVec.ofNat 16 here →
    (s.readReg l = 0 → ∃ t : State, exec (.rbf l seven) s = .next t ∧ t.pc = BitVec.ofNat 16 target) ∧
      (s.readReg l ≠ 0 → ∃ t : State, exec (.rbt l seven) s = .next t ∧ t.pc = BitVec.ofNat 16 target)
end

