-- ==== Sys2Proof/Laws/Decode.lean ====
section
/-! SUPPORT. The small lemmas of the decoder and the encoder: selectors, the constituents of a word and the word layouts
as numbers ("As arithmetic: iw = G*4096 + L*256 + R2*16 + R1", R61), and what a decoded word can be. -/

namespace Sys2Proof

/-! Selectors (R23). -/

@[simp] theorem regOfSelector_selectorOf (x : Reg) : regOfSelector (selectorOf x) = x := by
  cases x <;> rfl

@[simp] theorem selectorOf_regOfSelector (s : BitVec 4) : selectorOf (regOfSelector s) = s := by
  revert s
  decide

/-! Concatenation as arithmetic. -/

theorem append_toNat {m n : Nat} (x : BitVec m) (y : BitVec n) : (x ++ y).toNat = x.toNat * 2 ^ n + y.toNat := by
  rw [BitVec.toNat_append, ← Nat.shiftLeft_add_eq_or_of_lt y.isLt, Nat.shiftLeft_eq]

/-! The constituents of a word (R61, R63 to R65). -/

theorem fieldG_toNat (iw : Word) : (fieldG iw).toNat = iw.toNat / 4096 % 16 := by
  simp [fieldG, BitVec.extractLsb'_toNat, Nat.shiftRight_eq_div_pow]

theorem fieldL_toNat (iw : Word) : (fieldL iw).toNat = iw.toNat / 256 % 16 := by
  simp [fieldL, BitVec.extractLsb'_toNat, Nat.shiftRight_eq_div_pow]

theorem fieldR2Msb_toNat (iw : Word) : (fieldR2Msb iw).toNat = iw.toNat / 128 % 2 := by
  simp [fieldR2Msb, BitVec.extractLsb'_toNat, Nat.shiftRight_eq_div_pow]

theorem fieldR2Lor_toNat (iw : Word) : (fieldR2Lor iw).toNat = iw.toNat / 16 % 8 := by
  simp [fieldR2Lor, BitVec.extractLsb'_toNat, Nat.shiftRight_eq_div_pow]

theorem fieldR2_toNat (iw : Word) : (fieldR2 iw).toNat = iw.toNat / 16 % 16 := by
  simp [fieldR2, BitVec.extractLsb'_toNat, Nat.shiftRight_eq_div_pow]

theorem fieldR1_toNat (iw : Word) : (fieldR1 iw).toNat = iw.toNat % 16 := by
  simp [fieldR1, BitVec.extractLsb'_toNat]

theorem fieldSeven_toNat (iw : Word) : (fieldSeven iw).toNat = iw.toNat % 128 := by
  simp [fieldSeven, BitVec.extractLsb'_toNat]

theorem fieldTwelve_toNat (iw : Word) : (fieldTwelve iw).toNat = iw.toNat % 4096 := by
  simp [fieldTwelve, BitVec.extractLsb'_toNat]

/-- `opcode = G*2 + R2_MSB` (R63). -/
theorem opcodeOf_toNat (iw : Word) : (opcodeOf iw).toNat = iw.toNat / 4096 % 16 * 2 + iw.toNat / 128 % 2 := by
  show (fieldG iw ++ fieldR2Msb iw).toNat = _
  rw [append_toNat, fieldG_toNat, fieldR2Msb_toNat]
  omega

/-! The word layouts (R61, R70). -/

theorem sevenWord_toNat (g : BitVec 4) (msb : BitVec 1) (l : Reg) (seven : BitVec 7) :
    (sevenWord g msb l seven).toNat =
      g.toNat * 4096 + (selectorOf l).toNat * 256 + msb.toNat * 128 + seven.toNat := by
  show (g ++ selectorOf l ++ msb ++ seven).toNat = _
  simp only [append_toNat]
  omega

theorem offsWord_toNat (g : BitVec 4) (msb : BitVec 1) (l r1 : Reg) (lor : BitVec 3) :
    (offsWord g msb l r1 lor).toNat =
      g.toNat * 4096 + (selectorOf l).toNat * 256 + msb.toNat * 128 + lor.toNat * 16 + (selectorOf r1).toNat := by
  show (g ++ selectorOf l ++ msb ++ lor ++ selectorOf r1).toNat = _
  simp only [append_toNat]
  omega

theorem twelveWord_toNat (g : BitVec 4) (twelve : BitVec 12) :
    (twelveWord g twelve).toNat = g.toNat * 4096 + twelve.toNat := by
  show (g ++ twelve).toNat = _
  simp only [append_toNat]
  omega

theorem pairWord_toNat (g : BitVec 4) (l : Reg) (r2 : BitVec 4) (r1 : Reg) :
    (pairWord g l r2 r1).toNat =
      g.toNat * 4096 + (selectorOf l).toNat * 256 + r2.toNat * 16 + (selectorOf r1).toNat := by
  show (g ++ selectorOf l ++ r2 ++ selectorOf r1).toNat = _
  simp only [append_toNat]
  omega

/-- The shift field of a count that a word can hold is the count minus one (R67). -/
theorem shiftField_toNat {count : Nat} (h : shiftCountOk count = true) : (shiftField count).toNat = count - 1 := by
  simp [shiftCountOk] at h
  simp [shiftField]
  omega

/-! The constituents of each layout: each field of a word is the operand written there. -/

section
variable (g : BitVec 4) (msb : BitVec 1) (l r1 : Reg) (seven : BitVec 7) (lor : BitVec 3) (r2 : BitVec 4)
  (twelve : BitVec 12)

@[simp] theorem opcodeOf_sevenWord :
    (opcodeOf (sevenWord g msb l seven)).toNat = g.toNat * 2 + msb.toNat := by
  have := g.isLt; have := msb.isLt; have := (selectorOf l).isLt; have := seven.isLt
  rw [opcodeOf_toNat, sevenWord_toNat]; omega

@[simp] theorem fieldL_sevenWord : fieldL (sevenWord g msb l seven) = selectorOf l := by
  have := msb.isLt; have := (selectorOf l).isLt; have := seven.isLt
  exact BitVec.eq_of_toNat_eq (by rw [fieldL_toNat, sevenWord_toNat]; omega)

@[simp] theorem fieldSeven_sevenWord : fieldSeven (sevenWord g msb l seven) = seven := by
  have := seven.isLt
  exact BitVec.eq_of_toNat_eq (by rw [fieldSeven_toNat, sevenWord_toNat]; omega)

@[simp] theorem opcodeOf_offsWord :
    (opcodeOf (offsWord g msb l r1 lor)).toNat = g.toNat * 2 + msb.toNat := by
  have := g.isLt; have := msb.isLt; have := (selectorOf l).isLt; have := lor.isLt; have := (selectorOf r1).isLt
  rw [opcodeOf_toNat, offsWord_toNat]; omega

@[simp] theorem fieldL_offsWord : fieldL (offsWord g msb l r1 lor) = selectorOf l := by
  have := msb.isLt; have := (selectorOf l).isLt; have := lor.isLt; have := (selectorOf r1).isLt
  exact BitVec.eq_of_toNat_eq (by rw [fieldL_toNat, offsWord_toNat]; omega)

@[simp] theorem fieldR2Lor_offsWord : fieldR2Lor (offsWord g msb l r1 lor) = lor := by
  have := lor.isLt; have := (selectorOf r1).isLt
  exact BitVec.eq_of_toNat_eq (by rw [fieldR2Lor_toNat, offsWord_toNat]; omega)

@[simp] theorem fieldR1_offsWord : fieldR1 (offsWord g msb l r1 lor) = selectorOf r1 := by
  have := (selectorOf r1).isLt
  exact BitVec.eq_of_toNat_eq (by rw [fieldR1_toNat, offsWord_toNat]; omega)

@[simp] theorem fieldG_twelveWord : (opcodeOf (twelveWord g twelve)).toNat / 2 = g.toNat := by
  have := g.isLt; have := twelve.isLt
  rw [opcodeOf_toNat, twelveWord_toNat]; omega

@[simp] theorem fieldTwelve_twelveWord : fieldTwelve (twelveWord g twelve) = twelve := by
  have := twelve.isLt
  exact BitVec.eq_of_toNat_eq (by rw [fieldTwelve_toNat, twelveWord_toNat]; omega)

@[simp] theorem fieldG_pairWord : (opcodeOf (pairWord g l r2 r1)).toNat / 2 = g.toNat := by
  have := g.isLt; have := (selectorOf l).isLt; have := r2.isLt; have := (selectorOf r1).isLt
  rw [opcodeOf_toNat, pairWord_toNat]; omega

@[simp] theorem fieldL_pairWord : fieldL (pairWord g l r2 r1) = selectorOf l := by
  have := (selectorOf l).isLt; have := r2.isLt; have := (selectorOf r1).isLt
  exact BitVec.eq_of_toNat_eq (by rw [fieldL_toNat, pairWord_toNat]; omega)

@[simp] theorem fieldR2_pairWord : fieldR2 (pairWord g l r2 r1) = r2 := by
  have := r2.isLt; have := (selectorOf r1).isLt
  exact BitVec.eq_of_toNat_eq (by rw [fieldR2_toNat, pairWord_toNat]; omega)

@[simp] theorem fieldR1_pairWord : fieldR1 (pairWord g l r2 r1) = selectorOf r1 := by
  have := (selectorOf r1).isLt
  exact BitVec.eq_of_toNat_eq (by rw [fieldR1_toNat, pairWord_toNat]; omega)

end

/-! The halves of a word (R43). -/

theorem wordOfBytes_high_low (v : Word) : wordOfBytes (highByte v) (lowByte v) = v := by
  apply BitVec.eq_of_toNat_eq
  have hv := v.isLt
  show (highByte v ++ lowByte v).toNat = _
  rw [append_toNat]
  simp [highByte, lowByte, BitVec.extractLsb'_toNat, Nat.shiftRight_eq_div_pow]
  omega

/-! Rows (R71). -/

theorem getLsbD_sevenWord (g : BitVec 4) (msb : BitVec 1) (l : Reg) (seven : BitVec 7) (i : Nat) :
    (sevenWord g msb l seven).getLsbD i =
      if i < 7 then seven.getLsbD i
      else if i - 7 < 1 then msb.getLsbD (i - 7)
      else if i - 7 - 1 < 4 then (selectorOf l).getLsbD (i - 7 - 1)
      else g.getLsbD (i - 7 - 1 - 4) := by
  show (g ++ selectorOf l ++ msb ++ seven).getLsbD i = _
  rw [BitVec.getLsbD_append, BitVec.getLsbD_append, BitVec.getLsbD_append]

theorem and_firstMask (iw : Word) : iw &&& 0xF080 = sevenWord (fieldG iw) (fieldR2Msb iw) .d 0 := by
  apply BitVec.eq_of_getLsbD_eq
  intro i hi
  rw [getLsbD_sevenWord]
  interval_cases i <;> simp [fieldG, fieldR2Msb, selectorOf]

theorem and_secondMask (iw : Word) : iw &&& 0xF000 = sevenWord (fieldG iw) 0 .d 0 := by
  apply BitVec.eq_of_getLsbD_eq
  intro i hi
  rw [getLsbD_sevenWord]
  interval_cases i <;> simp [fieldG, selectorOf]

theorem and_firstMask_toNat (iw : Word) :
    (iw &&& 0xF080).toNat = iw.toNat / 4096 % 16 * 4096 + iw.toNat / 128 % 2 * 128 := by
  rw [and_firstMask, sevenWord_toNat, fieldG_toNat, fieldR2Msb_toNat]
  simp [selectorOf]

theorem and_secondMask_toNat (iw : Word) : (iw &&& 0xF000).toNat = iw.toNat / 4096 % 16 * 4096 := by
  rw [and_secondMask, sevenWord_toNat, fieldG_toNat]
  simp [selectorOf]

/-- A row of the first block covers a word exactly when G and R2_MSB agree with the row's pattern. -/
theorem covers_first (m : Mnemonic) (pattern iw : Word) (hp : pattern &&& 0xF080 = pattern) :
    (OpcodeRow.mk m 0xF080 pattern).covers iw = true ↔
      iw.toNat / 4096 % 16 = pattern.toNat / 4096 % 16 ∧ iw.toNat / 128 % 2 = pattern.toNat / 128 % 2 := by
  have h := and_firstMask_toNat iw
  have h' := and_firstMask_toNat pattern
  rw [hp] at h'
  rw [OpcodeRow.covers, beq_iff_eq]
  show iw &&& 0xF080 = pattern ↔ _
  rw [← BitVec.toNat_inj, h]
  omega

/-- A row of the second block covers a word exactly when G agrees with the row's pattern. -/
theorem covers_second (m : Mnemonic) (pattern iw : Word) (hp : pattern &&& 0xF000 = pattern) :
    (OpcodeRow.mk m 0xF000 pattern).covers iw = true ↔ iw.toNat / 4096 % 16 = pattern.toNat / 4096 % 16 := by
  have h := and_secondMask_toNat iw
  have h' := and_secondMask_toNat pattern
  rw [hp] at h'
  rw [OpcodeRow.covers, beq_iff_eq]
  show iw &&& 0xF000 = pattern ↔ _
  rw [← BitVec.toNat_inj, h]
  omega

end Sys2Proof
end

