-- ==== Sys2Proof/Laws/Flags.lean ====
section
/-! SUPPORT. What the computations of Machine/Flags.lean give, as numbers. -/

namespace Sys2Proof.Machine

theorem truth_toNat (b : Bool) : (truth b).toNat = if b then 1 else 0 := by
  cases b <;> rfl

/-- The 17-bit sum is exact. -/
theorem sum17_toNat (a b : Word) : (sum17 a b).toNat = a.toNat + b.toNat := by
  have ha := a.isLt
  have hb := b.isLt
  simp [sum17, BitVec.toNat_add]
  omega

/-- The sum word is the exact sum modulo 2^16. -/
theorem sumWord_toNat (a b : Word) : (sumWord a b).toNat = (a.toNat + b.toNat) % 65536 := by
  simp [sumWord, BitVec.extractLsb'_toNat, sum17_toNat]

theorem sumWord_eq_add (a b : Word) : sumWord a b = a + b :=
  BitVec.eq_of_toNat_eq (by rw [sumWord_toNat, BitVec.toNat_add])

/-- The carry word is the exact sum divided by 2^16. -/
theorem carryWord_toNat (a b : Word) : (carryWord a b).toNat = (a.toNat + b.toNat) / 65536 := by
  have ha := a.isLt
  have hb := b.isLt
  simp [carryWord, BitVec.extractLsb'_toNat, sum17_toNat, Nat.shiftRight_eq_div_pow]
  omega

/-- The complement of a nonzero word; zero stays zero. -/
theorem complement_toNat (v : Word) : (complement v).toNat = (65536 - v.toNat) % 65536 := by
  have hv := v.isLt
  simp [complement, BitVec.toNat_add, BitVec.toNat_not]
  omega

end Sys2Proof.Machine
end

