-- ==== Sys2Proof/Laws/Memory.lean ====
section
/-! SUPPORT. The laws of a memory: a read after a write, and that every write keeps the canonical form. -/

namespace Sys2Proof.Machine

/-! Bytes. -/

theorem Memory.readByte_erase_self (m : Memory) (b : Nat) : Memory.readByte (Memory.erase m b) b = unlistedByte := by
  induction m with
  | nil => rfl
  | cons cell rest ih =>
    simp only [Memory.erase, List.filter_cons] at ih ⊢
    by_cases h : cell.1 = b <;> simp_all [Memory.readByte]

theorem Memory.readByte_erase_ne (m : Memory) {b c : Nat} (hne : c ≠ b) :
    Memory.readByte (Memory.erase m b) c = Memory.readByte m c := by
  induction m with
  | nil => rfl
  | cons cell rest ih =>
    simp only [Memory.erase, List.filter_cons] at ih ⊢
    by_cases h : cell.1 = b
    · simp [h, ih, Memory.readByte, Ne.symm hne]
    · simp [h, ih, Memory.readByte]

theorem Memory.readByte_insert_ne (m : Memory) {b c : Nat} (v : Byte) (hne : c ≠ b) :
    Memory.readByte (Memory.insert m b v) c = Memory.readByte m c := by
  induction m with
  | nil => simp [Memory.insert, Memory.readByte, Ne.symm hne]
  | cons cell rest ih =>
    simp only [Memory.insert]
    split
    · simp [Memory.readByte, Ne.symm hne]
    · simp [Memory.readByte, ih]

theorem Memory.readByte_insert_self (m : Memory) (b : Nat) (v : Byte) (hm : ∀ cell ∈ m, cell.1 ≠ b) :
    Memory.readByte (Memory.insert m b v) b = v := by
  induction m with
  | nil => simp [Memory.insert, Memory.readByte]
  | cons cell rest ih =>
    simp only [Memory.insert]
    split
    · simp [Memory.readByte]
    · simp [Memory.readByte, hm cell (by simp), ih fun c hc => hm c (by simp [hc])]

theorem Memory.erase_ne (m : Memory) (b : Nat) : ∀ cell ∈ Memory.erase m b, cell.1 ≠ b := by
  intro cell hc
  simpa using (List.mem_filter.mp hc).2

/-- A byte read after a write of it gives the value written. -/
theorem Memory.readByte_writeByte_self (m : Memory) (b : Nat) (v : Byte) :
    Memory.readByte (Memory.writeByte m b v) b = v := by
  unfold Memory.writeByte
  split
  · next h => rw [Memory.readByte_erase_self, h]
  · exact Memory.readByte_insert_self _ _ _ (Memory.erase_ne m b)

/-- A write of one byte leaves every other byte alone. -/
theorem Memory.readByte_writeByte_ne (m : Memory) {b c : Nat} (v : Byte) (hne : c ≠ b) :
    Memory.readByte (Memory.writeByte m b v) c = Memory.readByte m c := by
  unfold Memory.writeByte
  split
  · exact Memory.readByte_erase_ne m hne
  · rw [Memory.readByte_insert_ne _ _ hne, Memory.readByte_erase_ne m hne]

/-! Words. -/

theorem cellOf_inj {a c : Word} (h : cellOf a = cellOf c) : a = c := by
  unfold cellOf at h
  exact BitVec.eq_of_toNat_eq (by omega)

theorem cellOf_lt (a : Word) : cellOf a + 1 < 2 * 65536 := by
  have := a.isLt
  unfold cellOf
  omega

/-- A write of one word leaves every byte alone but the word's two. -/
theorem Memory.readByte_writeWord_ne (m : Memory) (a v : Word) {b : Nat} (h₀ : b ≠ cellOf a) (h₁ : b ≠ cellOf a + 1) :
    Memory.readByte (Memory.writeWord m a v) b = Memory.readByte m b := by
  unfold Memory.writeWord
  rw [Memory.readByte_writeByte_ne _ _ h₁, Memory.readByte_writeByte_ne _ _ h₀]

/-- A word read after a write of it gives the value written. -/
@[simp] theorem Memory.readWord_writeWord_self (m : Memory) (a v : Word) :
    Memory.readWord (Memory.writeWord m a v) a = v := by
  unfold Memory.readWord Memory.writeWord
  rw [Memory.readByte_writeByte_self, Memory.readByte_writeByte_ne _ _ (by omega), Memory.readByte_writeByte_self,
    wordOfBytes_high_low]

/-- A write of one word leaves every other word alone. -/
theorem Memory.readWord_writeWord_ne (m : Memory) {a c : Word} (v : Word) (hne : c ≠ a) :
    Memory.readWord (Memory.writeWord m a v) c = Memory.readWord m c := by
  have h : cellOf c ≠ cellOf a := fun h => hne (cellOf_inj h)
  have h' : cellOf c = 2 * c.toNat := rfl
  have h'' : cellOf a = 2 * a.toNat := rfl
  unfold Memory.readWord
  rw [Memory.readByte_writeWord_ne _ _ _ h (by omega), Memory.readByte_writeWord_ne _ _ _ (by omega) (by omega)]

/-- Every word read after a write of one word. -/
theorem Memory.readWord_writeWord (m : Memory) (a c v : Word) :
    Memory.readWord (Memory.writeWord m a v) c = if c = a then v else Memory.readWord m c := by
  split
  · next h => rw [h, Memory.readWord_writeWord_self]
  · next h => exact Memory.readWord_writeWord_ne m v h

/-! What a change leaves alone. -/

theorem Memory.sameBut_refl (m : Memory) (as : List Word) : Memory.sameBut m m as := fun _ _ => rfl

/-- A write of one word changes only the word at its address. -/
theorem Memory.sameBut_writeWord (m : Memory) (a v : Word) {as : List Word} (ha : a ∈ as) :
    Memory.sameBut m (Memory.writeWord m a v) as :=
  fun _ hb => Memory.readByte_writeWord_ne m a v (hb a ha).1 (hb a ha).2

theorem Memory.sameBut_trans {m₁ m₂ m₃ : Memory} {as : List Word} (h : Memory.sameBut m₁ m₂ as)
    (h' : Memory.sameBut m₂ m₃ as) : Memory.sameBut m₁ m₃ as :=
  fun b hb => (h' b hb).trans (h b hb)

/-- A word at an address that is not listed reads as before. -/
theorem Memory.sameBut_readWord {m m' : Memory} {as : List Word} (h : Memory.sameBut m m' as) {c : Word}
    (hc : c ∉ as) : Memory.readWord m' c = Memory.readWord m c := by
  have key : ∀ a ∈ as, cellOf c ≠ cellOf a := fun a ha he => hc (cellOf_inj he ▸ ha)
  have hcell : ∀ a : Word, cellOf a = 2 * a.toNat := fun _ => rfl
  unfold Memory.readWord
  rw [h _ fun a ha => ⟨key a ha, by rw [hcell, hcell]; omega⟩,
    h _ fun a ha => ⟨by rw [hcell, hcell]; omega, fun he => key a ha (by omega)⟩]

/-! The canonical form. -/

theorem Memory.wf_iff (m : Memory) (words : Nat) :
    Memory.wf m words = true ↔
      List.Pairwise (fun cell next => cell.1 < next.1) m ∧
        ∀ cell ∈ m, cell.1 < 2 * words ∧ cell.2 ≠ unlistedByte := by
  simp [Memory.wf, List.all_eq_true]

theorem Memory.mem_insert {m : Memory} {b : Nat} {v : Byte} {cell : Host.Cell} (h : cell ∈ Memory.insert m b v) :
    cell = (b, v) ∨ cell ∈ m := by
  induction m with
  | nil => simpa [Memory.insert] using h
  | cons head rest ih =>
    simp only [Memory.insert] at h
    split at h
    · simpa using h
    · rcases List.mem_cons.mp h with h | h
      · exact .inr (by simp [h])
      · exact (ih h).imp_right (List.mem_cons_of_mem _)

theorem Memory.insert_rising {m : Memory} {b : Nat} {v : Byte}
    (hm : List.Pairwise (fun cell next : Host.Cell => cell.1 < next.1) m) (hb : ∀ cell ∈ m, cell.1 ≠ b) :
    List.Pairwise (fun cell next : Host.Cell => cell.1 < next.1) (Memory.insert m b v) := by
  induction m with
  | nil => simp [Memory.insert]
  | cons head rest ih =>
    obtain ⟨hhead, hrest⟩ := List.pairwise_cons.mp hm
    simp only [Memory.insert]
    split
    · next hlt =>
      refine List.pairwise_cons.mpr ⟨fun c hc => ?_, hm⟩
      rcases List.mem_cons.mp hc with rfl | hc
      · exact hlt
      · exact hlt.trans (hhead c hc)
    · next hge =>
      refine List.pairwise_cons.mpr ⟨fun c hc => ?_, ih hrest fun c hc => hb c (by simp [hc])⟩
      rcases Memory.mem_insert hc with rfl | hc
      · have := hb head (by simp)
        simp only
        omega
      · exact hhead c hc

/-- A write of one byte inside the memory keeps the canonical form. -/
theorem Memory.wf_writeByte {m : Memory} {words b : Nat} (v : Byte) (hm : Memory.wf m words = true)
    (hb : b < 2 * words) : Memory.wf (Memory.writeByte m b v) words = true := by
  rw [Memory.wf_iff] at hm ⊢
  have hp : List.Pairwise (fun cell next : Host.Cell => cell.1 < next.1) (Memory.erase m b) := hm.1.filter _
  have hall : ∀ cell ∈ Memory.erase m b, cell.1 < 2 * words ∧ cell.2 ≠ unlistedByte :=
    fun cell hc => hm.2 cell (List.mem_filter.mp hc).1
  unfold Memory.writeByte
  split
  · exact ⟨hp, hall⟩
  · next hv =>
    refine ⟨Memory.insert_rising hp (Memory.erase_ne m b), fun cell hc => ?_⟩
    rcases Memory.mem_insert hc with rfl | hc
    · exact ⟨hb, hv⟩
    · exact hall cell hc

/-- A write of one word keeps the canonical form of a memory of 65536 words. -/
theorem Memory.wf_writeWord {m : Memory} (a v : Word) (hm : Memory.wf m 65536 = true) :
    Memory.wf (Memory.writeWord m a v) 65536 = true := by
  have := cellOf_lt a
  exact Memory.wf_writeByte _ (Memory.wf_writeByte _ hm (by omega)) (by omega)

/-- Reset's memories have the canonical form. -/
theorem Memory.wf_nil (words : Nat) : Memory.wf [] words = true := by
  simp [Memory.wf]

end Sys2Proof.Machine
end

