-- ==== Sys2Proof/Laws/State.lean ====
section
/-! SUPPORT. One lemma per field per update of State, so that no proof unfolds a record update. -/

namespace Sys2Proof.Machine

variable (s : State)

@[simp] theorem State.setPc_pc (v : Word) : (s.setPc v).pc = v := rfl
@[simp] theorem State.setPc_sfp (v : Word) : (s.setPc v).sfp = s.sfp := rfl
@[simp] theorem State.setPc_ifp (v : Word) : (s.setPc v).ifp = s.ifp := rfl
@[simp] theorem State.setPc_cfk (v : Word) : (s.setPc v).cfk = s.cfk := rfl
@[simp] theorem State.setPc_fs (v : Word) : (s.setPc v).fs = s.fs := rfl
@[simp] theorem State.setPc_ram (v : Word) : (s.setPc v).ram = s.ram := rfl
@[simp] theorem State.setPc_requests (v : Word) : (s.setPc v).requests = s.requests := rfl
@[simp] theorem State.setPc_runEnded (v : Word) : (s.setPc v).runEnded = s.runEnded := rfl
@[simp] theorem State.setPc_irq (v : Word) : (s.setPc v).irq = s.irq := rfl

@[simp] theorem State.setSfp_pc (v : Word) : (s.setSfp v).pc = s.pc := rfl
@[simp] theorem State.setSfp_sfp (v : Word) : (s.setSfp v).sfp = v := rfl
@[simp] theorem State.setSfp_ifp (v : Word) : (s.setSfp v).ifp = s.ifp := rfl
@[simp] theorem State.setSfp_cfk (v : Word) : (s.setSfp v).cfk = s.cfk := rfl
@[simp] theorem State.setSfp_fs (v : Word) : (s.setSfp v).fs = s.fs := rfl
@[simp] theorem State.setSfp_ram (v : Word) : (s.setSfp v).ram = s.ram := rfl
@[simp] theorem State.setSfp_requests (v : Word) : (s.setSfp v).requests = s.requests := rfl
@[simp] theorem State.setSfp_runEnded (v : Word) : (s.setSfp v).runEnded = s.runEnded := rfl
@[simp] theorem State.setSfp_irq (v : Word) : (s.setSfp v).irq = s.irq := rfl

@[simp] theorem State.setIfp_pc (v : Word) : (s.setIfp v).pc = s.pc := rfl
@[simp] theorem State.setIfp_sfp (v : Word) : (s.setIfp v).sfp = s.sfp := rfl
@[simp] theorem State.setIfp_ifp (v : Word) : (s.setIfp v).ifp = v := rfl
@[simp] theorem State.setIfp_cfk (v : Word) : (s.setIfp v).cfk = s.cfk := rfl
@[simp] theorem State.setIfp_fs (v : Word) : (s.setIfp v).fs = s.fs := rfl
@[simp] theorem State.setIfp_ram (v : Word) : (s.setIfp v).ram = s.ram := rfl
@[simp] theorem State.setIfp_requests (v : Word) : (s.setIfp v).requests = s.requests := rfl
@[simp] theorem State.setIfp_runEnded (v : Word) : (s.setIfp v).runEnded = s.runEnded := rfl
@[simp] theorem State.setIfp_irq (v : Word) : (s.setIfp v).irq = s.irq := rfl

@[simp] theorem State.setCfk_pc (v : FrameKey) : (s.setCfk v).pc = s.pc := rfl
@[simp] theorem State.setCfk_sfp (v : FrameKey) : (s.setCfk v).sfp = s.sfp := rfl
@[simp] theorem State.setCfk_ifp (v : FrameKey) : (s.setCfk v).ifp = s.ifp := rfl
@[simp] theorem State.setCfk_cfk (v : FrameKey) : (s.setCfk v).cfk = v := rfl
@[simp] theorem State.setCfk_fs (v : FrameKey) : (s.setCfk v).fs = s.fs := rfl
@[simp] theorem State.setCfk_ram (v : FrameKey) : (s.setCfk v).ram = s.ram := rfl
@[simp] theorem State.setCfk_requests (v : FrameKey) : (s.setCfk v).requests = s.requests := rfl
@[simp] theorem State.setCfk_runEnded (v : FrameKey) : (s.setCfk v).runEnded = s.runEnded := rfl
@[simp] theorem State.setCfk_irq (v : FrameKey) : (s.setCfk v).irq = s.irq := rfl

@[simp] theorem State.writeFs_pc (a v : Word) : (s.writeFs a v).pc = s.pc := rfl
@[simp] theorem State.writeFs_sfp (a v : Word) : (s.writeFs a v).sfp = s.sfp := rfl
@[simp] theorem State.writeFs_ifp (a v : Word) : (s.writeFs a v).ifp = s.ifp := rfl
@[simp] theorem State.writeFs_cfk (a v : Word) : (s.writeFs a v).cfk = s.cfk := rfl
@[simp] theorem State.writeFs_fs (a v : Word) : (s.writeFs a v).fs = Memory.writeWord s.fs a v := rfl
@[simp] theorem State.writeFs_ram (a v : Word) : (s.writeFs a v).ram = s.ram := rfl
@[simp] theorem State.writeFs_requests (a v : Word) : (s.writeFs a v).requests = s.requests := rfl
@[simp] theorem State.writeFs_runEnded (a v : Word) : (s.writeFs a v).runEnded = s.runEnded := rfl
@[simp] theorem State.writeFs_irq (a v : Word) : (s.writeFs a v).irq = s.irq := rfl

@[simp] theorem State.memWrite_pc (a v : Word) : (s.memWrite a v).pc = s.pc := rfl
@[simp] theorem State.memWrite_sfp (a v : Word) : (s.memWrite a v).sfp = s.sfp := rfl
@[simp] theorem State.memWrite_ifp (a v : Word) : (s.memWrite a v).ifp = s.ifp := rfl
@[simp] theorem State.memWrite_cfk (a v : Word) : (s.memWrite a v).cfk = s.cfk := rfl
@[simp] theorem State.memWrite_fs (a v : Word) : (s.memWrite a v).fs = s.fs := rfl
@[simp] theorem State.memWrite_ram (a v : Word) : (s.memWrite a v).ram = Memory.writeWord s.ram a v := rfl
@[simp] theorem State.memWrite_requests (a v : Word) : (s.memWrite a v).requests = s.requests := rfl
@[simp] theorem State.memWrite_runEnded (a v : Word) : (s.memWrite a v).runEnded = s.runEnded := rfl
@[simp] theorem State.memWrite_irq (a v : Word) : (s.memWrite a v).irq = s.irq := rfl

@[simp] theorem State.logRequest_pc (req : CpuRequest) : (s.logRequest req).pc = s.pc := rfl
@[simp] theorem State.logRequest_sfp (req : CpuRequest) : (s.logRequest req).sfp = s.sfp := rfl
@[simp] theorem State.logRequest_ifp (req : CpuRequest) : (s.logRequest req).ifp = s.ifp := rfl
@[simp] theorem State.logRequest_cfk (req : CpuRequest) : (s.logRequest req).cfk = s.cfk := rfl
@[simp] theorem State.logRequest_fs (req : CpuRequest) : (s.logRequest req).fs = s.fs := rfl
@[simp] theorem State.logRequest_ram (req : CpuRequest) : (s.logRequest req).ram = s.ram := rfl
@[simp] theorem State.logRequest_requests (req : CpuRequest) : (s.logRequest req).requests = req :: s.requests := rfl
@[simp] theorem State.logRequest_runEnded (req : CpuRequest) : (s.logRequest req).runEnded = s.runEnded := rfl
@[simp] theorem State.logRequest_irq (req : CpuRequest) : (s.logRequest req).irq = s.irq := rfl

@[simp] theorem State.setIrq_pc (events : List PlatformEvent) : (s.setIrq events).pc = s.pc := rfl
@[simp] theorem State.setIrq_sfp (events : List PlatformEvent) : (s.setIrq events).sfp = s.sfp := rfl
@[simp] theorem State.setIrq_ifp (events : List PlatformEvent) : (s.setIrq events).ifp = s.ifp := rfl
@[simp] theorem State.setIrq_cfk (events : List PlatformEvent) : (s.setIrq events).cfk = s.cfk := rfl
@[simp] theorem State.setIrq_fs (events : List PlatformEvent) : (s.setIrq events).fs = s.fs := rfl
@[simp] theorem State.setIrq_ram (events : List PlatformEvent) : (s.setIrq events).ram = s.ram := rfl
@[simp] theorem State.setIrq_requests (events : List PlatformEvent) : (s.setIrq events).requests = s.requests := rfl
@[simp] theorem State.setIrq_runEnded (events : List PlatformEvent) : (s.setIrq events).runEnded = s.runEnded := rfl
@[simp] theorem State.setIrq_irq (events : List PlatformEvent) : (s.setIrq events).irq = events := rfl

@[simp] theorem State.writeReg_pc (x : Reg) (v : Word) : (s.writeReg x v).pc = s.pc := rfl
@[simp] theorem State.writeReg_sfp (x : Reg) (v : Word) : (s.writeReg x v).sfp = s.sfp := rfl
@[simp] theorem State.writeReg_ifp (x : Reg) (v : Word) : (s.writeReg x v).ifp = s.ifp := rfl
@[simp] theorem State.writeReg_cfk (x : Reg) (v : Word) : (s.writeReg x v).cfk = s.cfk := rfl
@[simp] theorem State.writeReg_fs (x : Reg) (v : Word) : (s.writeReg x v).fs = Memory.writeWord s.fs (s.ref x) v := rfl
@[simp] theorem State.writeReg_ram (x : Reg) (v : Word) : (s.writeReg x v).ram = s.ram := rfl
@[simp] theorem State.writeReg_requests (x : Reg) (v : Word) : (s.writeReg x v).requests = s.requests := rfl
@[simp] theorem State.writeReg_runEnded (x : Reg) (v : Word) : (s.writeReg x v).runEnded = s.runEnded := rfl
@[simp] theorem State.writeReg_irq (x : Reg) (v : Word) : (s.writeReg x v).irq = s.irq := rfl

@[simp] theorem State.writeD_pc (v : Word) : (s.writeD v).pc = s.pc := rfl
@[simp] theorem State.writeD_sfp (v : Word) : (s.writeD v).sfp = s.sfp := rfl
@[simp] theorem State.writeD_ifp (v : Word) : (s.writeD v).ifp = s.ifp := rfl
@[simp] theorem State.writeD_cfk (v : Word) : (s.writeD v).cfk = s.cfk := rfl
@[simp] theorem State.writeD_fs (v : Word) : (s.writeD v).fs = Memory.writeWord s.fs (s.ref .d) v := rfl
@[simp] theorem State.writeD_ram (v : Word) : (s.writeD v).ram = s.ram := rfl
@[simp] theorem State.writeD_requests (v : Word) : (s.writeD v).requests = s.requests := rfl
@[simp] theorem State.writeD_runEnded (v : Word) : (s.writeD v).runEnded = s.runEnded := rfl
@[simp] theorem State.writeD_irq (v : Word) : (s.writeD v).irq = s.irq := rfl

@[simp] theorem State.advance_pc (n : Word) : (s.advance n).pc = s.pc + n := rfl
@[simp] theorem State.advance_sfp (n : Word) : (s.advance n).sfp = s.sfp := rfl
@[simp] theorem State.advance_ifp (n : Word) : (s.advance n).ifp = s.ifp := rfl
@[simp] theorem State.advance_cfk (n : Word) : (s.advance n).cfk = s.cfk := rfl
@[simp] theorem State.advance_fs (n : Word) : (s.advance n).fs = s.fs := rfl
@[simp] theorem State.advance_ram (n : Word) : (s.advance n).ram = s.ram := rfl
@[simp] theorem State.advance_requests (n : Word) : (s.advance n).requests = s.requests := rfl
@[simp] theorem State.advance_runEnded (n : Word) : (s.advance n).runEnded = s.runEnded := rfl
@[simp] theorem State.advance_irq (n : Word) : (s.advance n).irq = s.irq := rfl

@[simp] theorem State.enterInterrupt_pc (handler : Word) : (s.enterInterrupt handler).pc = handler := rfl
@[simp] theorem State.enterInterrupt_sfp (handler : Word) : (s.enterInterrupt handler).sfp = s.sfp := rfl
@[simp] theorem State.enterInterrupt_ifp (handler : Word) : (s.enterInterrupt handler).ifp = s.ifp + intFrameWords := rfl
@[simp] theorem State.enterInterrupt_cfk (handler : Word) : (s.enterInterrupt handler).cfk = s.cfk := rfl
@[simp] theorem State.enterInterrupt_fs (handler : Word) : (s.enterInterrupt handler).fs = s.fs := rfl
@[simp] theorem State.enterInterrupt_ram (handler : Word) : (s.enterInterrupt handler).ram = s.ram := rfl
@[simp] theorem State.enterInterrupt_requests (handler : Word) : (s.enterInterrupt handler).requests = s.requests := rfl
@[simp] theorem State.enterInterrupt_runEnded (handler : Word) : (s.enterInterrupt handler).runEnded = s.runEnded := rfl
@[simp] theorem State.enterInterrupt_irq (handler : Word) : (s.enterInterrupt handler).irq = s.irq := rfl

@[simp] theorem State.leaveInterrupt_pc (resume : Word) : (s.leaveInterrupt resume).pc = resume := rfl
@[simp] theorem State.leaveInterrupt_sfp (resume : Word) : (s.leaveInterrupt resume).sfp = s.sfp := rfl
@[simp] theorem State.leaveInterrupt_ifp (resume : Word) : (s.leaveInterrupt resume).ifp = s.ifp - intFrameWords := rfl
@[simp] theorem State.leaveInterrupt_cfk (resume : Word) : (s.leaveInterrupt resume).cfk = s.cfk := rfl
@[simp] theorem State.leaveInterrupt_fs (resume : Word) : (s.leaveInterrupt resume).fs = s.fs := rfl
@[simp] theorem State.leaveInterrupt_ram (resume : Word) : (s.leaveInterrupt resume).ram = s.ram := rfl
@[simp] theorem State.leaveInterrupt_requests (resume : Word) : (s.leaveInterrupt resume).requests = s.requests := rfl
@[simp] theorem State.leaveInterrupt_runEnded (resume : Word) : (s.leaveInterrupt resume).runEnded = s.runEnded := rfl
@[simp] theorem State.leaveInterrupt_irq (resume : Word) : (s.leaveInterrupt resume).irq = s.irq := rfl

@[simp] theorem State.popFrame_pc (saved : Word) : (s.popFrame saved).pc = s.pc := rfl
@[simp] theorem State.popFrame_sfp (saved : Word) : (s.popFrame saved).sfp = s.sfp + subFrameWords := rfl
@[simp] theorem State.popFrame_ifp (saved : Word) : (s.popFrame saved).ifp = s.ifp := rfl
@[simp] theorem State.popFrame_cfk (saved : Word) : (s.popFrame saved).cfk = saved.setWidth 12 := rfl
@[simp] theorem State.popFrame_fs (saved : Word) : (s.popFrame saved).fs = s.fs := rfl
@[simp] theorem State.popFrame_ram (saved : Word) : (s.popFrame saved).ram = s.ram := rfl
@[simp] theorem State.popFrame_requests (saved : Word) : (s.popFrame saved).requests = s.requests := rfl
@[simp] theorem State.popFrame_runEnded (saved : Word) : (s.popFrame saved).runEnded = s.runEnded := rfl
@[simp] theorem State.popFrame_irq (saved : Word) : (s.popFrame saved).irq = s.irq := rfl

@[simp] theorem State.pushFrame_pc (key : FrameKey) (ret : Word) : (s.pushFrame key ret).pc = s.pc := rfl
@[simp] theorem State.pushFrame_sfp (key : FrameKey) (ret : Word) : (s.pushFrame key ret).sfp = s.sfp - subFrameWords := rfl
@[simp] theorem State.pushFrame_ifp (key : FrameKey) (ret : Word) : (s.pushFrame key ret).ifp = s.ifp := rfl
@[simp] theorem State.pushFrame_cfk (key : FrameKey) (ret : Word) : (s.pushFrame key ret).cfk = key := rfl
@[simp] theorem State.pushFrame_fs (key : FrameKey) (ret : Word) : (s.pushFrame key ret).fs = Memory.writeWord (Memory.writeWord s.fs (s.sfp - subFrameWords + fkOffset) (s.cfk.zeroExtend 16))
      (s.sfp - subFrameWords + 0) ret := rfl
@[simp] theorem State.pushFrame_ram (key : FrameKey) (ret : Word) : (s.pushFrame key ret).ram = s.ram := rfl
@[simp] theorem State.pushFrame_requests (key : FrameKey) (ret : Word) : (s.pushFrame key ret).requests = s.requests := rfl
@[simp] theorem State.pushFrame_runEnded (key : FrameKey) (ret : Word) : (s.pushFrame key ret).runEnded = s.runEnded := rfl
@[simp] theorem State.pushFrame_irq (key : FrameKey) (ret : Word) : (s.pushFrame key ret).irq = s.irq := rfl

@[simp] theorem State.deliver_pc (l : Reg) (answer : PlatformAnswer) : (s.deliver l answer).pc = s.pc := rfl
@[simp] theorem State.deliver_sfp (l : Reg) (answer : PlatformAnswer) : (s.deliver l answer).sfp = s.sfp := rfl
@[simp] theorem State.deliver_ifp (l : Reg) (answer : PlatformAnswer) : (s.deliver l answer).ifp = s.ifp := rfl
@[simp] theorem State.deliver_cfk (l : Reg) (answer : PlatformAnswer) : (s.deliver l answer).cfk = s.cfk := rfl
@[simp] theorem State.deliver_fs (l : Reg) (answer : PlatformAnswer) : (s.deliver l answer).fs = s.fsAfterAnswer l answer := rfl
@[simp] theorem State.deliver_ram (l : Reg) (answer : PlatformAnswer) : (s.deliver l answer).ram = s.ram := rfl
@[simp] theorem State.deliver_requests (l : Reg) (answer : PlatformAnswer) : (s.deliver l answer).requests = s.requests := rfl
@[simp] theorem State.deliver_runEnded (l : Reg) (answer : PlatformAnswer) : (s.deliver l answer).runEnded = (s.runEnded || answer.endsRun) := rfl
@[simp] theorem State.deliver_irq (l : Reg) (answer : PlatformAnswer) : (s.deliver l answer).irq = s.irq := rfl

@[simp] theorem State.placeAtPc_pc (first second : Word) : (s.placeAtPc first second).pc = s.pc := rfl
@[simp] theorem State.placeAtPc_sfp (first second : Word) : (s.placeAtPc first second).sfp = s.sfp := rfl
@[simp] theorem State.placeAtPc_ifp (first second : Word) : (s.placeAtPc first second).ifp = s.ifp := rfl
@[simp] theorem State.placeAtPc_cfk (first second : Word) : (s.placeAtPc first second).cfk = s.cfk := rfl
@[simp] theorem State.placeAtPc_fs (first second : Word) : (s.placeAtPc first second).fs = s.fs := rfl
@[simp] theorem State.placeAtPc_ram (first second : Word) : (s.placeAtPc first second).ram = Memory.writeWord (Memory.writeWord s.ram s.pc first) (s.pc + 1) second := rfl
@[simp] theorem State.placeAtPc_requests (first second : Word) : (s.placeAtPc first second).requests = s.requests := rfl
@[simp] theorem State.placeAtPc_runEnded (first second : Word) : (s.placeAtPc first second).runEnded = false := rfl
@[simp] theorem State.placeAtPc_irq (first second : Word) : (s.placeAtPc first second).irq = [] := rfl

end Sys2Proof.Machine
end

