-- ==== Sys2Proof/Laws/Ops.lean ====
section
/-! SUPPORT. One lemma for each shared operation that says once what it does: the provers cite these and do not unfold
the operations. -/

namespace Sys2Proof.Machine

/-! Selector resolution depends on SFP, IFP and CFK alone. -/

theorem State.ref_congr {s t : State} (h : s.sameHidden t) (x : Reg) : t.ref x = s.ref x := by
  obtain ⟨h₁, h₂, h₃⟩ := h
  cases x <;> simp [State.ref, State.aliasAddr, h₁, h₂, h₃]

@[simp] theorem State.ref_setPc (s : State) (v : Word) (x : Reg) : (s.setPc v).ref x = s.ref x :=
  State.ref_congr ⟨rfl, rfl, rfl⟩ x

@[simp] theorem State.ref_advance (s : State) (n : Word) (x : Reg) : (s.advance n).ref x = s.ref x :=
  State.ref_congr ⟨rfl, rfl, rfl⟩ x

@[simp] theorem State.ref_writeFs (s : State) (a v : Word) (x : Reg) : (s.writeFs a v).ref x = s.ref x :=
  State.ref_congr ⟨rfl, rfl, rfl⟩ x

@[simp] theorem State.ref_writeReg (s : State) (y : Reg) (v : Word) (x : Reg) : (s.writeReg y v).ref x = s.ref x :=
  State.ref_congr ⟨rfl, rfl, rfl⟩ x

@[simp] theorem State.ref_writeD (s : State) (v : Word) (x : Reg) : (s.writeD v).ref x = s.ref x :=
  State.ref_congr ⟨rfl, rfl, rfl⟩ x

@[simp] theorem State.ref_memWrite (s : State) (a v : Word) (x : Reg) : (s.memWrite a v).ref x = s.ref x :=
  State.ref_congr ⟨rfl, rfl, rfl⟩ x

@[simp] theorem State.ref_setIrq (s : State) (events : List PlatformEvent) (x : Reg) :
    (s.setIrq events).ref x = s.ref x :=
  State.ref_congr ⟨rfl, rfl, rfl⟩ x

@[simp] theorem State.ref_transfer (s : State) (l : Reg) (code : BitVec 7) (answer : PlatformAnswer) (x : Reg) :
    (s.transfer l code answer).ref x = s.ref x :=
  State.ref_congr ⟨rfl, rfl, rfl⟩ x

/-! Registers (R25). -/

/-- Reading any register after a register write: the value, for every register that names the word written. -/
theorem State.readReg_writeReg (s : State) (x y : Reg) (v : Word) :
    (s.writeReg x v).readReg y = if s.ref y = s.ref x then v else s.readReg y := by
  unfold State.readReg State.readFs
  rw [State.ref_writeReg, State.writeReg_fs, Memory.readWord_writeWord]

@[simp] theorem State.readReg_writeReg_self (s : State) (x : Reg) (v : Word) : (s.writeReg x v).readReg x = v := by
  rw [State.readReg_writeReg, if_pos rfl]

theorem State.readReg_writeD (s : State) (y : Reg) (v : Word) :
    (s.writeD v).readReg y = if s.ref y = s.ref .d then v else s.readReg y :=
  State.readReg_writeReg s .d y v

@[simp] theorem State.readReg_setPc (s : State) (v : Word) (x : Reg) : (s.setPc v).readReg x = s.readReg x := by
  unfold State.readReg State.readFs
  rw [State.ref_setPc, State.setPc_fs]

@[simp] theorem State.readReg_advance (s : State) (n : Word) (x : Reg) : (s.advance n).readReg x = s.readReg x :=
  State.readReg_setPc s _ x

@[simp] theorem State.readReg_memWrite (s : State) (a v : Word) (x : Reg) :
    (s.memWrite a v).readReg x = s.readReg x := by
  unfold State.readReg State.readFs
  rw [State.ref_memWrite, State.memWrite_fs]

/-! Main RAM (R50). -/

/-- Reading any word of main RAM after a write of one. -/
theorem State.memRead_memWrite (s : State) (a c v : Word) :
    (s.memWrite a v).memRead c = if c = a then v else s.memRead c :=
  Memory.readWord_writeWord s.ram a c v

@[simp] theorem State.memRead_advance (s : State) (n c : Word) : (s.advance n).memRead c = s.memRead c := rfl

@[simp] theorem State.memRead_writeReg (s : State) (x : Reg) (v c : Word) :
    (s.writeReg x v).memRead c = s.memRead c := rfl

/-! What an operation leaves alone. -/

theorem State.changesOnlyFs_setPc (s : State) (v : Word) (as : List Word) : s.changesOnlyFs (s.setPc v) as :=
  ⟨fun _ _ => rfl, fun _ _ => rfl, ⟨rfl, rfl, rfl⟩, ⟨rfl, rfl, rfl⟩⟩

theorem State.changesOnlyFs_writeReg (s : State) (x : Reg) (v : Word) {as : List Word} (h : s.ref x ∈ as) :
    s.changesOnlyFs (s.writeReg x v) as :=
  ⟨Memory.sameBut_writeWord _ _ _ h, fun _ _ => rfl, ⟨rfl, rfl, rfl⟩, ⟨rfl, rfl, rfl⟩⟩

theorem State.changesOnlyFs_trans {s t u : State} {as : List Word} (h : s.changesOnlyFs t as)
    (h' : t.changesOnlyFs u as) : s.changesOnlyFs u as := by
  obtain ⟨f, r, ⟨p₁, p₂, p₃⟩, ⟨o₁, o₂, o₃⟩⟩ := h
  obtain ⟨f', r', ⟨q₁, q₂, q₃⟩, ⟨n₁, n₂, n₃⟩⟩ := h'
  exact ⟨Memory.sameBut_trans f f', Memory.sameBut_trans r r', ⟨q₁.trans p₁, q₂.trans p₂, q₃.trans p₃⟩,
    ⟨n₁.trans o₁, n₂.trans o₂, n₃.trans o₃⟩⟩

/-! Frame keys (R17, R142). -/

theorem frameKey_toNat (k1 k2 k3 k4 : BitVec 3) :
    (frameKey k1 k2 k3 k4).toNat = k1.toNat * 512 + k2.toNat * 64 + k3.toNat * 8 + k4.toNat := by
  show (k1 ++ k2 ++ k3 ++ k4).toNat = _
  simp only [append_toNat]
  omega

/-- The slots of a frame key are the four indices it was made of. -/
theorem keySlot_frameKey (k1 k2 k3 k4 : BitVec 3) :
    keySlot (frameKey k1 k2 k3 k4) 0 = k1 ∧ keySlot (frameKey k1 k2 k3 k4) 1 = k2 ∧
      keySlot (frameKey k1 k2 k3 k4) 2 = k3 ∧ keySlot (frameKey k1 k2 k3 k4) 3 = k4 := by
  have h := frameKey_toNat k1 k2 k3 k4
  have := k1.isLt; have := k2.isLt; have := k3.isLt; have := k4.isLt
  refine ⟨?_, ?_, ?_, ?_⟩ <;> apply BitVec.eq_of_toNat_eq <;>
    simp only [keySlot, BitVec.extractLsb'_toNat, h, Nat.shiftRight_eq_div_pow] <;> omega

/-! Subroutine frames (R140, R141). -/

/-- A pushed frame: its R holds the return address and its FK the caller's key; no other frame-store word changes. -/
theorem State.pushFrame_spec (s : State) (key : FrameKey) (ret : Word) :
    let t := s.pushFrame key ret
    t.readReg .r = ret ∧ t.readFs t.fkAddr = s.cfk.zeroExtend 16 ∧
      Memory.sameBut s.fs t.fs [s.sfp - 9 + 8, s.sfp - 9] := by
  have hne : s.sfp - 9 + 8 ≠ s.sfp - 9 + 0 := by bv_omega
  refine ⟨?_, ?_, ?_⟩
  · exact Memory.readWord_writeWord_self _ _ _
  · refine (Memory.readWord_writeWord_ne _ _ hne).trans (Memory.readWord_writeWord_self _ _ _)
  · refine Memory.sameBut_trans (Memory.sameBut_writeWord _ _ _ ?_) (Memory.sameBut_writeWord _ _ _ ?_)
    · exact List.mem_cons_self
    · show s.sfp - 9 + 0 ∈ _
      simp

/-! The exchange with the platform (R100). -/

/-- The frame store after an answer: the selected register, and only it, receives the result. -/
theorem State.fsAfterAnswer_cases (s : State) (l : Reg) (answer : PlatformAnswer) :
    (answer.result = none ∧ s.fsAfterAnswer l answer = s.fs) ∨
      ∃ v, answer.result = some v ∧ s.fsAfterAnswer l answer = Memory.writeWord s.fs (s.ref l) v := by
  cases h : answer.result with
  | none => exact .inl ⟨rfl, by simp [State.fsAfterAnswer, h]⟩
  | some v => exact .inr ⟨v, rfl, by simp [State.fsAfterAnswer, h]⟩

@[simp] theorem State.transfer_pc (s : State) (l : Reg) (code : BitVec 7) (answer : PlatformAnswer) :
    (s.transfer l code answer).pc = s.pc := rfl

@[simp] theorem State.transfer_ram (s : State) (l : Reg) (code : BitVec 7) (answer : PlatformAnswer) :
    (s.transfer l code answer).ram = s.ram := rfl

@[simp] theorem State.transfer_requests (s : State) (l : Reg) (code : BitVec 7) (answer : PlatformAnswer) :
    (s.transfer l code answer).requests = ⟨code, s.readReg l⟩ :: s.requests := rfl

@[simp] theorem State.transfer_irq (s : State) (l : Reg) (code : BitVec 7) (answer : PlatformAnswer) :
    (s.transfer l code answer).irq = s.irq := rfl

@[simp] theorem State.transfer_runEnded (s : State) (l : Reg) (code : BitVec 7) (answer : PlatformAnswer) :
    (s.transfer l code answer).runEnded = (s.runEnded || answer.endsRun) := rfl

theorem State.transfer_fs (s : State) (l : Reg) (code : BitVec 7) (answer : PlatformAnswer) :
    (s.transfer l code answer).fs = s.fsAfterAnswer l answer := by
  unfold State.transfer State.deliver State.fsAfterAnswer
  cases answer.result <;> rfl

/-- A transfer keeps SFP, IFP and CFK. -/
theorem State.sameHidden_transfer (s : State) (l : Reg) (code : BitVec 7) (answer : PlatformAnswer) :
    s.sameHidden (s.transfer l code answer) := ⟨rfl, rfl, rfl⟩

/-! The invariant. -/

theorem State.inv_iff (s : State) : s.inv = true ↔ Memory.wf s.ram 65536 = true ∧ Memory.wf s.fs 65536 = true := by
  simp [State.inv, Config.ramWords, Config.fsDepth]

/-- A state whose memories are those of a state with the invariant has it. -/
theorem State.inv_congr {s t : State} (hf : t.fs = s.fs) (hr : t.ram = s.ram) (h : s.inv = true) : t.inv = true := by
  rw [State.inv_iff] at h ⊢
  rwa [hf, hr]

theorem State.inv_writeFs {s : State} (a v : Word) (h : s.inv = true) : (s.writeFs a v).inv = true := by
  rw [State.inv_iff] at h ⊢
  exact ⟨h.1, Memory.wf_writeWord _ _ h.2⟩

theorem State.inv_writeReg {s : State} (x : Reg) (v : Word) (h : s.inv = true) : (s.writeReg x v).inv = true :=
  State.inv_writeFs _ v h

theorem State.inv_memWrite {s : State} (a v : Word) (h : s.inv = true) : (s.memWrite a v).inv = true := by
  rw [State.inv_iff] at h ⊢
  exact ⟨Memory.wf_writeWord _ _ h.1, h.2⟩

theorem State.inv_pushFrame {s : State} (key : FrameKey) (ret : Word) (h : s.inv = true) :
    (s.pushFrame key ret).inv = true := by
  rw [State.inv_iff] at h ⊢
  exact ⟨h.1, Memory.wf_writeWord _ _ (Memory.wf_writeWord _ _ h.2)⟩

theorem State.inv_transfer {s : State} (l : Reg) (code : BitVec 7) (answer : PlatformAnswer) (h : s.inv = true) :
    (s.transfer l code answer).inv = true := by
  rw [State.inv_iff] at h ⊢
  refine ⟨h.1, ?_⟩
  rw [State.transfer_fs]
  rcases s.fsAfterAnswer_cases l answer with ⟨_, hf⟩ | ⟨v, _, hf⟩
  · rw [hf]; exact h.2
  · rw [hf]; exact Memory.wf_writeWord _ _ h.2

/-! The boundary and the step (R10, R176). -/

/-- What a boundary can come to. -/
theorem State.boundary_cases (s : State) :
    (s.runEnded = true ∧ s.boundary = .ended) ∨
      (s.runEnded = false ∧ s.irq = [] ∧ s.boundary = .run s) ∨
      (∃ rest, s.runEnded = false ∧ s.irq = .quiet :: rest ∧ s.boundary = .run (s.setIrq rest)) ∨
      (∃ h rest, s.runEnded = false ∧ s.irq = .request h :: rest ∧
        s.boundary = .moved ((s.setIrq rest).enterInterrupt h)) ∨
      (∃ p rest, s.runEnded = false ∧ s.irq = .handled p :: rest ∧
        s.boundary = .moved ((s.setIrq rest).leaveInterrupt p)) := by
  cases hr : s.runEnded with
  | true => exact .inl ⟨rfl, by simp [State.boundary, hr]⟩
  | false =>
    refine .inr ?_
    cases hi : s.irq with
    | nil => exact .inl ⟨rfl, rfl, by simp [State.boundary, hr, hi]⟩
    | cons e rest =>
      cases e with
      | quiet => exact .inr (.inl ⟨rest, rfl, rfl, by simp [State.boundary, hr, hi]⟩)
      | request h => exact .inr (.inr (.inl ⟨h, rest, rfl, rfl, by simp [State.boundary, hr, hi]⟩))
      | handled p => exact .inr (.inr (.inr ⟨p, rest, rfl, rfl, by simp [State.boundary, hr, hi]⟩))

/-- What a step that answers a next state has done: an interrupt movement, or the instruction fetched. -/
theorem step_cases {s t : State} (h : step s = .next t) :
    s.runEnded = false ∧
      ((∃ a rest, s.irq = .request a :: rest ∧ t = (s.setIrq rest).enterInterrupt a) ∨
        (∃ a rest, s.irq = .handled a :: rest ∧ t = (s.setIrq rest).leaveInterrupt a) ∨
        (∃ i rest, (s.irq = .quiet :: rest ∨ s.irq = [] ∧ rest = []) ∧ decode s.fetch = .ok i ∧
          exec i (s.setIrq rest) = .next t)) := by
  have key : ∀ u : State, runInstr u = .next t → ∃ i, decode u.fetch = .ok i ∧ exec i u = .next t := by
    intro u hu
    unfold runInstr at hu
    split at hu
    · next i hi => exact ⟨i, hi, hu⟩
    · cases hu
  unfold step at h
  rcases s.boundary_cases with ⟨_, hb⟩ | ⟨hr, hi, hb⟩ | ⟨rest, hr, hi, hb⟩ | ⟨a, rest, hr, hi, hb⟩ | ⟨a, rest, hr, hi, hb⟩
  · simp [hb] at h
  · simp only [hb] at h
    obtain ⟨i, hd, he⟩ := key _ h
    refine ⟨hr, .inr (.inr ⟨i, [], .inr ⟨hi, rfl⟩, hd, ?_⟩)⟩
    have : s.setIrq [] = s := by rw [← hi]; rfl
    rwa [this]
  · simp only [hb] at h
    obtain ⟨i, hd, he⟩ := key _ h
    exact ⟨hr, .inr (.inr ⟨i, rest, .inl hi, hd, he⟩)⟩
  · simp only [hb, Host.Outcome.next.injEq] at h
    exact ⟨hr, .inl ⟨a, rest, hi, h.symm⟩⟩
  · simp only [hb, Host.Outcome.next.injEq] at h
    exact ⟨hr, .inr (.inl ⟨a, rest, hi, h.symm⟩)⟩

end Sys2Proof.Machine
end

