-- ==== Sys2Proof/Laws/PerInstr.lean ====
section
/-! SUPPORT. Statements for all instructions, one lemma per constructor of Instr. Family `RowMatch`: the word of an
instruction lies in the row of the opcode table that its mnemonic has (R70, R71). -/

namespace Sys2Proof.Laws.RowMatch

/-- The row of the instruction's mnemonic covers its word. -/
def Statement (i : Instr) : Prop := (opcodeRow i.mnemonic).covers (encode i) = true

theorem seven_first (m : Mnemonic) (g : BitVec 4) (msb : BitVec 1) (l : Reg) (seven : BitVec 7) (pattern : Word)
    (hp : pattern &&& 0xF080 = pattern) (hg : pattern.toNat / 4096 % 16 = g.toNat)
    (hm : pattern.toNat / 128 % 2 = msb.toNat) :
    (OpcodeRow.mk m 0xF080 pattern).covers (sevenWord g msb l seven) = true := by
  rw [covers_first m pattern _ hp, sevenWord_toNat]
  have := g.isLt; have := msb.isLt; have := (selectorOf l).isLt; have := seven.isLt
  omega

theorem offs_first (m : Mnemonic) (g : BitVec 4) (msb : BitVec 1) (l r1 : Reg) (lor : BitVec 3) (pattern : Word)
    (hp : pattern &&& 0xF080 = pattern) (hg : pattern.toNat / 4096 % 16 = g.toNat)
    (hm : pattern.toNat / 128 % 2 = msb.toNat) :
    (OpcodeRow.mk m 0xF080 pattern).covers (offsWord g msb l r1 lor) = true := by
  rw [covers_first m pattern _ hp, offsWord_toNat]
  have := g.isLt; have := msb.isLt; have := (selectorOf l).isLt; have := lor.isLt; have := (selectorOf r1).isLt
  omega

theorem twelve_second (m : Mnemonic) (g : BitVec 4) (twelve : BitVec 12) (pattern : Word)
    (hp : pattern &&& 0xF000 = pattern) (hg : pattern.toNat / 4096 % 16 = g.toNat) :
    (OpcodeRow.mk m 0xF000 pattern).covers (twelveWord g twelve) = true := by
  rw [covers_second m pattern _ hp, twelveWord_toNat]
  have := g.isLt; have := twelve.isLt
  omega

theorem pair_second (m : Mnemonic) (g : BitVec 4) (l : Reg) (r2 : BitVec 4) (r1 : Reg) (pattern : Word)
    (hp : pattern &&& 0xF000 = pattern) (hg : pattern.toNat / 4096 % 16 = g.toNat) :
    (OpcodeRow.mk m 0xF000 pattern).covers (pairWord g l r2 r1) = true := by
  rw [covers_second m pattern _ hp, pairWord_toNat]
  have := g.isLt; have := (selectorOf l).isLt; have := r2.isLt; have := (selectorOf r1).isLt
  omega

theorem cpu (l : Reg) (seven : BitVec 7) : Statement (.cpu l seven) :=
  seven_first _ _ _ _ _ _ (by decide) (by decide) (by decide)

theorem set (l : Reg) (seven : BitVec 7) : Statement (.set l seven) :=
  seven_first _ _ _ _ _ _ (by decide) (by decide) (by decide)

theorem rbf (l : Reg) (seven : BitVec 7) : Statement (.rbf l seven) :=
  seven_first _ _ _ _ _ _ (by decide) (by decide) (by decide)

theorem rbt (l : Reg) (seven : BitVec 7) : Statement (.rbt l seven) :=
  seven_first _ _ _ _ _ _ (by decide) (by decide) (by decide)

theorem dtc (l : Reg) (seven : BitVec 7) : Statement (.dtc l seven) :=
  seven_first _ _ _ _ _ _ (by decide) (by decide) (by decide)

theorem ltl (l : Reg) (seven : BitVec 7) : Statement (.ltl l seven) :=
  seven_first _ _ _ _ _ _ (by decide) (by decide) (by decide)

theorem eql (l : Reg) (seven : BitVec 7) : Statement (.eql l seven) :=
  seven_first _ _ _ _ _ _ (by decide) (by decide) (by decide)

theorem gtl (l : Reg) (seven : BitVec 7) : Statement (.gtl l seven) :=
  seven_first _ _ _ _ _ _ (by decide) (by decide) (by decide)

theorem jmp (l r1 : Reg) (lor : BitVec 3) : Statement (.jmp l r1 lor) :=
  offs_first _ _ _ _ _ _ _ (by decide) (by decide) (by decide)

theorem ltr (l r1 : Reg) (lor : BitVec 3) : Statement (.ltr l r1 lor) :=
  offs_first _ _ _ _ _ _ _ (by decide) (by decide) (by decide)

theorem eqr (l r1 : Reg) (lor : BitVec 3) : Statement (.eqr l r1 lor) :=
  offs_first _ _ _ _ _ _ _ (by decide) (by decide) (by decide)

theorem gtr (l r1 : Reg) (lor : BitVec 3) : Statement (.gtr l r1 lor) :=
  offs_first _ _ _ _ _ _ _ (by decide) (by decide) (by decide)

theorem lod (l r1 : Reg) (lor : BitVec 3) : Statement (.lod l r1 lor) :=
  offs_first _ _ _ _ _ _ _ (by decide) (by decide) (by decide)

theorem sto (l r1 : Reg) (lor : BitVec 3) : Statement (.sto l r1 lor) :=
  offs_first _ _ _ _ _ _ _ (by decide) (by decide) (by decide)

theorem shl (l r1 : Reg) (count : Nat) : Statement (.shl l r1 count) :=
  offs_first _ _ _ _ _ _ _ (by decide) (by decide) (by decide)

theorem shr (l r1 : Reg) (count : Nat) : Statement (.shr l r1 count) :=
  offs_first _ _ _ _ _ _ _ (by decide) (by decide) (by decide)

theorem get (l r1 : Reg) (r2 : BitVec 4) : Statement (.get l r1 r2) :=
  pair_second _ _ _ _ _ _ (by decide) (by decide)

theorem jsr (twelve : BitVec 12) : Statement (.jsr twelve) :=
  twelve_second _ _ _ _ (by decide) (by decide)

theorem rts (twelve : BitVec 12) : Statement (.rts twelve) :=
  twelve_second _ _ _ _ (by decide) (by decide)

theorem and (l r2 r1 : Reg) : Statement (.and l r2 r1) :=
  pair_second _ _ _ _ _ _ (by decide) (by decide)

theorem ior (l r2 r1 : Reg) : Statement (.ior l r2 r1) :=
  pair_second _ _ _ _ _ _ (by decide) (by decide)

theorem eor (l r2 r1 : Reg) : Statement (.eor l r2 r1) :=
  pair_second _ _ _ _ _ _ (by decide) (by decide)

theorem add (l r2 r1 : Reg) : Statement (.add l r2 r1) :=
  pair_second _ _ _ _ _ _ (by decide) (by decide)

theorem sub (l r2 r1 : Reg) : Statement (.sub l r2 r1) :=
  pair_second _ _ _ _ _ _ (by decide) (by decide)

end Sys2Proof.Laws.RowMatch
end

