-- ==== Sys2Proof/Tests/Slice0.lean ====
section
/-! SUPPORT. The model's own tests: the ill-formed terms, one word of every instruction written out from the spec's
encoding, and small steps with the results that 95_test_vectors.md derives (the vector's id stands in the comment). -/

namespace Sys2Proof.Tests

open Sys2Proof.Machine

/-- The start state of the vectors: reset with the PC at 0100h and the frame-store words listed. -/
def start (words : List (Word × Word)) : State :=
  words.foldl (fun s w => s.writeFs w.1 w.2) (State.reset.setPc 0x0100)

/-- One step on the instruction `w` (second word in bits 31 to 16) at the PC, seen through `f`. -/
def after {α : Type} (s : State) (w : Nat) (f : State → α) : Option α :=
  match step (s.withFetchWord 32 w) with
  | .next t => some (f t)
  | .fault _ => none
  | .refused _ => none

/-! WellFormed: the shift count is 1 to 8 (R67). -/

theorem test_shl_count_zero_refused : (Instr.shl .l1 .l2 0).wellFormed = false := by decide
theorem test_shl_count_nine_refused : (Instr.shl .l1 .l2 9).wellFormed = false := by decide
theorem test_shr_count_zero_refused : (Instr.shr .l1 .l2 0).wellFormed = false := by decide
theorem test_shr_count_nine_refused : (Instr.shr .l1 .l2 9).wellFormed = false := by decide
theorem test_shr_count_eight_accepted : (Instr.shr .l1 .l2 8).wellFormed = true := by decide

/-! Decoding: words of 95_test_vectors.md, in bits as R70 lays them out. -/

/- 0541h, V2: 0000 0101 0 100 0001 -/
theorem test_decode_cpu : decodeTableWord 16 0b0000010101000001 = some (.cpu .a2 0x41) := by decide
/- 0DFFh, V5: 0000 1101 1 111 1111 -/
theorem test_decode_set : decodeTableWord 16 0b0000110111111111 = some (.set .l5 0x7F) := by decide
/- 1F02h, V8: 0001 1111 0 000 0010 -/
theorem test_decode_rbf : decodeTableWord 16 0b0001111100000010 = some (.rbf .l7 2) := by decide
/- 1AF7h, V13: 0001 1010 1 111 0111 -/
theorem test_decode_rbt : decodeTableWord 16 0b0001101011110111 = some (.rbt .l2 0x77) := by decide
/- 2E05h, V16: 0010 1110 0 000 0101 -/
theorem test_decode_dtc : decodeTableWord 16 0b0010111000000101 = some (.dtc .l6 5) := by decide
/- 298Ah, V18: 0010 1001 1 000 1010 -/
theorem test_decode_ltl : decodeTableWord 16 0b0010100110001010 = some (.ltl .l1 10) := by decide
/- 390Ah, V21: 0011 1001 0 000 1010 -/
theorem test_decode_eql : decodeTableWord 16 0b0011100100001010 = some (.eql .l1 10) := by decide
/- 398Ah, V23: 0011 1001 1 000 1010 -/
theorem test_decode_gtl : decodeTableWord 16 0b0011100110001010 = some (.gtl .l1 10) := by decide
/- 4079h, V32: 0100 0000 0 111 1001 -/
theorem test_decode_jmp : decodeTableWord 16 0b0100000001111001 = some (.jmp .d .l1 7) := by decide
/- 49FAh, V34: 0100 1001 1 111 1010 -/
theorem test_decode_ltr : decodeTableWord 16 0b0100100111111010 = some (.ltr .l1 .l2 7) := by decide
/- 594Ah, V38: 0101 1001 0 100 1010 -/
theorem test_decode_eqr : decodeTableWord 16 0b0101100101001010 = some (.eqr .l1 .l2 4) := by decide
/- 59AAh, V41: 0101 1001 1 010 1010 -/
theorem test_decode_gtr : decodeTableWord 16 0b0101100110101010 = some (.gtr .l1 .l2 2) := by decide
/- 6923h, R124: 0110 1001 0 010 0011 -/
theorem test_decode_lod : decodeTableWord 16 0b0110100100100011 = some (.lod .l1 .dp 2) := by decide
/- 6B9Ah, V45: 0110 1011 1 001 1010 -/
theorem test_decode_sto : decodeTableWord 16 0b0110101110011010 = some (.sto .l3 .l2 1) := by decide
/- 793Ah, R126: 0111 1001 0 011 1010 -/
theorem test_decode_shl : decodeTableWord 16 0b0111100100111010 = some (.shl .l1 .l2 4) := by decide
/- 79FAh, R127: 0111 1001 1 111 1010 -/
theorem test_decode_shr : decodeTableWord 16 0b0111100111111010 = some (.shr .l1 .l2 8) := by decide
/- 8AFAh, V54: 1000 1010 1 111 1010 -/
theorem test_decode_get : decodeTableWord 16 0b1000101011111010 = some (.get .l2 .l2 0xF) := by decide
/- 929Ch, V60: 1001 0010 1 001 1100 -/
theorem test_decode_jsr : decodeTableWord 16 0b1001001010011100 = some (.jsr 0x29C) := by decide
/- A123h, R141: 1010 0001 0 010 0011 -/
theorem test_decode_rts : decodeTableWord 16 0b1010000100100011 = some (.rts 0x123) := by decide
/- BFC6h, V70: 1011 1111 1 100 0110 -/
theorem test_decode_and : decodeTableWord 16 0b1011111111000110 = some (.and .l7 .l4 .a3) := by decide
/- C6D6h, R151: 1100 0110 1 101 0110 -/
theorem test_decode_ior : decodeTableWord 16 0b1100011011010110 = some (.ior .a3 .l5 .a3) := by decide
/- DBA9h, V73: 1101 1011 1 010 1001 -/
theorem test_decode_eor : decodeTableWord 16 0b1101101110101001 = some (.eor .l3 .l2 .l1) := by decide
/- E797h, R153: 1110 0111 1 001 0111 -/
theorem test_decode_add : decodeTableWord 16 0b1110011110010111 = some (.add .a4 .l1 .a4) := by decide
/- FBA9h, V82: 1111 1011 1 010 1001 -/
theorem test_decode_sub : decodeTableWord 16 0b1111101110101001 = some (.sub .l3 .l2 .l1) := by decide

theorem test_decode_truncated : decodeBytes [0x29] = .error .truncated := by decide

/-! Single steps. -/

/- V4 -/
theorem test_set_small :
    after (start []) 0x000000FE (fun t => (t.readReg .d, t.pc)) = some (0x007E, 0x0101) := by decide

/- V7: pc = FFFFh, the second word stands at 0000h -/
theorem test_set_wraps :
    after ((start []).setPc 0xFFFF) 0x123409FF (fun t => (t.readReg .l1, t.pc)) = some (0x1234, 0x0001) := by decide

/- V11 -/
theorem test_rbf_taken_wraps :
    after ((start [(0xFF01, 0x0000)]).setPc 0x0010) 0x00001940 (fun t => t.pc) = some 0xFFD0 := by decide

/- V9 -/
theorem test_rbf_not_taken :
    after ((start [(0xFF07, 0x0001)]).setPc 0x0019) 0x00001F02 (fun t => t.pc) = some 0x001A := by decide

/- V15 -/
theorem test_rbt_taken_on_8000 :
    after ((start [(0xFF02, 0x8000)]).setPc 0x0021) 0x00001AF7 (fun t => t.pc) = some 0x0018 := by decide

/- V14 -/
theorem test_rbt_not_taken :
    after ((start [(0xFF02, 0x0000)]).setPc 0x0021) 0x00001AF7 (fun t => t.pc) = some 0x0022 := by decide

/- V16 -/
theorem test_dtc :
    after (start []) 0x02002E05 (fun t => (t.readReg .d, t.readReg .l6, t.pc)) = some (0x0005, 0x0100, 0x0200) := by decide

/- V17: the literal wins -/
theorem test_dtc_into_d :
    after (start []) 0x02002005 (fun t => (t.readReg .d, t.pc)) = some (0x0005, 0x0200) := by decide

/- V18 -/
theorem test_ltl_less :
    after (start [(0xFF01, 0x0009)]) 0x0000298A (fun t => (t.readReg .d, t.pc)) = some (0x0001, 0x0101) := by decide

/- V20 -/
theorem test_ltl_unsigned :
    after (start [(0xFF01, 0xFFFF), (0x0000, 0x0001)]) 0x0000298A (fun t => t.readReg .d) = some 0x0000 := by decide

/- V21 -/
theorem test_eql_equal :
    after (start [(0xFF01, 0x000A)]) 0x0000390A (fun t => t.readReg .d) = some 0x0001 := by decide

/- V22 -/
theorem test_eql_all_bits :
    after (start [(0xFF01, 0x010A), (0x0000, 0x0001)]) 0x0000390A (fun t => t.readReg .d) = some 0x0000 := by decide

/- V24 -/
theorem test_gtl_unsigned :
    after (start [(0xFF01, 0xFFFF)]) 0x000039FF (fun t => t.readReg .d) = some 0x0001 := by decide

/- V25 -/
theorem test_gtl_of_d :
    after (start [(0x0000, 0x0005)]) 0x00003080 (fun t => t.readReg .d) = some 0x0001 := by decide

/- V31: the old value is the target -/
theorem test_jmp_same_register :
    after ((start [(0xFF01, 0x0300)]).setPc 0x0200) 0x00004909 (fun t => (t.readReg .l1, t.pc)) = some (0x0200, 0x0300) := by decide

/- V32 -/
theorem test_jmp_wraps :
    after ((start [(0xFF01, 0xFFFC)]).setPc 0x0200) 0x00004079 (fun t => (t.readReg .d, t.pc)) = some (0x0200, 0x0003) := by decide

/- V34 -/
theorem test_ltr_not_less :
    after (start [(0xFF01, 0x0004), (0xFF02, 0x0005), (0x0000, 0x0007)]) 0x000049FA (fun t => t.readReg .d) = some 0x0000 := by decide

/- V35 -/
theorem test_ltr_sum_wraps :
    after (start [(0xFF01, 0x0004), (0xFF02, 0x0000)]) 0x000049FA (fun t => t.readReg .d) = some 0x0001 := by decide

/- V38 -/
theorem test_eqr_negative_literal :
    after (start [(0xFF01, 0x0FFC), (0xFF02, 0x1000)]) 0x0000594A (fun t => t.readReg .d) = some 0x0001 := by decide

/- V39 -/
theorem test_eqr_not_equal :
    after (start [(0xFF01, 0x0007), (0x0000, 0x0001)]) 0x00005919 (fun t => t.readReg .d) = some 0x0000 := by decide

/- V40 -/
theorem test_gtr_unsigned :
    after (start [(0xFF01, 0x8000), (0xFF02, 0x7FFF)]) 0x0000598A (fun t => t.readReg .d) = some 0x0001 := by decide

/- V41 -/
theorem test_gtr_not_greater :
    after (start [(0xFF01, 0x0007), (0xFF02, 0x0005), (0x0000, 0x0001)]) 0x000059AA (fun t => t.readReg .d) = some 0x0000 := by decide

/- V43 -/
theorem test_lod_same_register :
    after ((start [(0xFF02, 0x0300)]).memWrite 0x0300 0x0301) 0x00006A0A (fun t => (t.readReg .l2, t.pc)) = some (0x0301, 0x0101) := by decide

/- V44, X12 -/
theorem test_lod_wraps :
    after ((start [(0xFF02, 0xFFFF)]).memWrite 0x0006 0x00AA) 0x00006B7A (fun t => t.readReg .l3) = some 0x00AA := by decide

/- V45 -/
theorem test_sto :
    after (start [(0xFF03, 0xCAFE), (0xFF02, 0x0300)]) 0x00006B9A (fun t => (t.memRead 0x0301, t.pc)) = some (0xCAFE, 0x0101) := by decide

/- V47 -/
theorem test_sto_over_next_instruction :
    after (start [(0xFF01, 0x1000), (0xFF02, 0x0100)]) 0x0000699A (fun t => t.fetch) = some 0x1000 := by decide

/- V48 -/
theorem test_shl_one :
    after (start [(0xFF01, 0xC001)]) 0x00007B09 (fun t => t.readReg .l3) = some 0x8002 := by decide

/- V49 -/
theorem test_shl_eight :
    after (start [(0xFF01, 0x12AB)]) 0x00007B79 (fun t => (t.readReg .l3, t.readReg .l1)) = some (0xAB00, 0x12AB) := by decide

/- V51 -/
theorem test_shr_zero_fill :
    after (start [(0xFF01, 0x8001)]) 0x00007B89 (fun t => t.readReg .l3) = some 0x4000 := by decide

/- V52 -/
theorem test_shr_eight :
    after (start [(0xFF01, 0xABCD)]) 0x00007BF9 (fun t => t.readReg .l3) = some 0x00AB := by decide

/- V55 -/
theorem test_get_wraps :
    after (start [(0xFF02, 0x0000)]) 0x00008AFA (fun t => (t.readReg .l2, t.pc)) = some (0xFFFF, 0x0101) := by decide

/- V56: A1 names FS[FF0Ah] -/
theorem test_get_alias :
    after ((start [(0xFF0A, 0x0077)]).setCfk 0x29C) 0x00008E04 (fun t => t.readReg .l6) = some 0x0077 := by decide

/- V60 -/
theorem test_jsr :
    after ((start []).setPc 0x0004) 0x0010929C (fun t => (t.pc, t.sfp, t.cfk, t.readReg .r)) = some (0x0010, 0xFEF7, 0x29C, 0x0006) := by decide

/- V61 -/
theorem test_jsr_through_d :
    after ((start [(0x0000, 0x0300)]).setCfk 0x5A5) 0x00009000 (fun t => (t.pc, t.cfk, t.readFs 0xFEFF)) = some (0x0300, 0x000, 0x05A5) := by decide

/- V63 -/
theorem test_rts :
    after ((start [(0xFEF7, 0x0006), (0x0000, 0x0777)]).setSfp 0xFEF7 |>.setCfk 0x29C) 0x0000A000 (fun t => (t.pc, t.sfp, t.cfk, t.readReg .d)) = some (0x0006, 0xFF00, 0x000, 0x0000) := by decide

/- V64 -/
theorem test_rts_ignores_high_key_bits :
    after ((start [(0xFEF7, 0x0123), (0xFEFF, 0xF5A5)]).setSfp 0xFEF7) 0x0000AFFF (fun t => (t.pc, t.cfk, t.readReg .d)) = some (0x0123, 0x5A5, 0x0FFF) := by decide

/- V71 -/
theorem test_and :
    after (start [(0xFF01, 0xFF00), (0xFF02, 0x0FF0)]) 0x0000BBA9 (fun t => t.readReg .l3) = some 0x0F00 := by decide

/- V72 -/
theorem test_ior :
    after (start [(0xFF01, 0xFF00), (0xFF02, 0x0FF0)]) 0x0000CBA9 (fun t => t.readReg .l3) = some 0xFFF0 := by decide

/- V74 -/
theorem test_eor_clears :
    after (start [(0xFF01, 0xABCD)]) 0x0000D999 (fun t => t.readReg .l1) = some 0x0000 := by decide

/- V79 -/
theorem test_add_into_d_leaves_carry :
    after (start [(0xFF01, 0xFFFF), (0xFF02, 0x0001)]) 0x0000E0A9 (fun t => t.readReg .d) = some 0x0001 := by decide

/- V81 -/
theorem test_add_doubling :
    after (start [(0xFF01, 0xC000)]) 0x0000E999 (fun t => (t.readReg .l1, t.readReg .d)) = some (0x8000, 0x0001) := by decide

/- V83: 3 - 5 -/
theorem test_sub_order :
    after (start [(0xFF01, 0x0005), (0xFF02, 0x0003), (0x0000, 0x0001)]) 0x0000FBA9 (fun t => (t.readReg .l3, t.readReg .d)) = some (0xFFFE, 0x0000) := by decide

/- V84: 5 - 0 -/
theorem test_sub_zero_has_no_carry :
    after (start [(0xFF01, 0x0000), (0xFF02, 0x0005), (0x0000, 0x0001)]) 0x0000FBA9 (fun t => (t.readReg .l3, t.readReg .d)) = some (0x0005, 0x0000) := by decide

/- V1: the request code and the value of D are handed over and the PC advances, whatever the platform answers. -/
theorem test_cpu_request : after (start [(0x0000, 0x0009)]) 0x0000 (fun t => (t.requests, t.pc)) =
    some ([⟨sysBoot, 0x0009⟩], 0x0101) := rfl

/- V2, S4: the keyboard request with a scancode ready writes it to A2, here FS[FF0Bh]. -/
theorem test_cpu_keycode :
    (((start []).setCfk 0x29C).transfer .a2 0x41 (keycodeAnswer true 0x001C)).readFs 0xFF0B = 0x001C := by decide

/- X5: an interrupt entry banks D; X6: a compare in the handler writes the handler's D. -/
theorem test_interrupt_entry_banks_d :
    (steps 1 { start [(0x0000, 0x0001)] with irq := [.request 0x0200] }).map
      (fun t => (t.ifp, t.readReg .d, t.readFs 0x0000, t.sfp)) = some (0x0004, 0x0000, 0x0001, 0xFF00) := by decide

/- X7: the completion names the interrupted D again. -/
theorem test_interrupt_completion :
    (steps 2 { start [(0x0000, 0x0001)] with irq := [.request 0x0200, .handled 0x0100] }).map
      (fun t => (t.ifp, t.readReg .d, t.pc)) = some (0x0000, 0x0001, 0x0100) := by decide

/- X1: the first instruction of zeroed RAM is a CPU request, after which the PC is 0001h. -/
theorem test_first_step_from_reset : (steps 1 State.reset).map (fun t => t.pc) = some 0x0001 := rfl

/-! Assembly: the multiplication subroutine S1, placed at 0010h, gives the words of its table. -/

theorem test_line_comment : lineCode ['M', 'U', 'L'] = none := by decide
theorem test_line_strips_comment : lineCode [' ', 'R', ';', 'x'] = some [' ', 'R'] := by decide
theorem test_number_hexadecimal : numberOf ['8', '0', '0', '0', 'h'] = some 0x8000 := by decide
theorem test_number_negative_binary : numberOf ['-', '1', '0', '1', 'b'] = some (-5) := by decide

/-- The source of S1. -/
def multiply : List AsmItem :=
  [.mark ['M', 'U', 'L'],
   .code (some .l6) .get [.reg .a1],
   .code (some .l1) .get [.reg .a2],
   .code (some .a3) .get [.reg .l6],
   .code (some .a4) .set [.num 0],
   .code (some .l2) .set [.num 16],
   .code (some .l4) .set [.num 1],
   .code (some .l5) .set [], .break_, .data 0x8000,
   .mark ['R', 'E', 'P'],
   .code (some .l7) .and [.reg .a3, .reg .l4],
   .code (some .l7) .rbf [.following ['1']],
   .code none .add [.reg .a4, .reg .l1],
   .mark ['1'],
   .code (some .l3) .and [.reg .a4, .reg .l4],
   .code none .shr [.reg .a4, .num 1],
   .code none .shr [.reg .a3, .num 1],
   .code (some .l3) .rbf [.following ['2']],
   .code none .ior [.reg .a3, .reg .l5],
   .mark ['2'],
   .code (some .l2) .get [.reg .l2, .num (-1)],
   .code (some .l2) .rbt [.preceding ['R', 'E', 'P']],
   .code none .rts [.num 0]]

theorem test_multiply_assembles : assemble 0x0010 multiply =
    some [0x8E04, 0x8905, 0x860E, 0x0780, 0x0A90, 0x0C81, 0x0DFF, 0x8000, 0xBFC6, 0x1F02, 0xE797, 0xBBC7, 0x7787,
      0x7686, 0x1B02, 0xC6D6, 0x8AFA, 0x1AF7, 0xA000] := by decide

/- D18, P4: a call line and its target word. -/
theorem test_jsr_assembles :
    assemble 0x0002 [.code none .jsr [.reg .l1, .reg .l2, .reg .r, .reg .r], .name ['F'], .mark ['F']] =
      some [0x9280, 0x0004] := by decide

/- R84: SYS_boot is mixed case, so a constant; H_BRA is upper case, so a label; the rest by R83, R85 and R86. -/
theorem test_tokens :
    tokenOf ['S', 'Y', 'S', '_', 'b', 'o', 'o', 't'] = some (.name .constant ['S', 'Y', 'S', '_', 'b', 'o', 'o', 't']) ∧
      tokenOf ['H', '_', 'B', 'R', 'A'] = some (.name .label ['H', '_', 'B', 'R', 'A']) ∧
      tokenOf ['>', '1'] = some (.following ['1']) ∧ tokenOf ['A', '1'] = some (.register .a1) ∧
      tokenOf ['-', '1'] = some (.number (-1)) ∧ tokenOf [':', ':'] = some .break_ := by decide

/- R84, R87: `DEF Ten 10`, `L1 SET Ten`, `L5 SET :: Ten`: the constant in an instruction and outside one. -/
theorem test_constant_in_and_outside_instruction :
    assemble 0x0000 [.define ['T', 'e', 'n'] 10, .code (some .l1) .set [.name ['T', 'e', 'n']],
      .code (some .l5) .set [], .break_, .name ['T', 'e', 'n']] = some [0x098A, 0x0DFF, 0x000A] := by decide

/- R84: a bare label in an instruction is its address, not a distance. -/
theorem test_label_in_instruction :
    assemble 0x0020 [.mark ['F'], .code (some .l1) .set [.name ['F']]] = some [0x09A0] := by decide

theorem test_define_upper_case_refused : assemble 0x0000 [.define ['F'] 1] = none := by decide
theorem test_not_ascii_refused : assemble 0x0000 [.chars [Char.ofNat 233]] = none := by decide
theorem test_code_up_to_the_end : assemble 0xFFFF [.chars ['A']] = some [0x0041] := by decide
theorem test_code_past_the_end_refused : assemble 0xFFFF [.data 1, .data 2] = none := by decide
theorem test_mark_past_the_end_refused : assemble 0xFFFF [.data 1, .mark ['E']] = none := by decide

/-! Witnesses: for each statement with hypotheses a concrete state and operands that meet them all. -/

theorem test_witness_CanonicalMemoriesReadingAlikeAreEqual :
    Memory.wf [(2, 0x05), (131071, 0xFF)] 65536 = true ∧
      Memory.wf (Memory.writeByte [(2, 0x09), (131071, 0xFF)] 2 0x05) 65536 = true ∧
      ∀ b : Nat, Memory.readByte [(2, 0x05), (131071, 0xFF)] b =
        Memory.readByte (Memory.writeByte [(2, 0x09), (131071, 0xFF)] 2 0x05) b :=
  ⟨by decide, by decide, fun _ => rfl⟩

theorem test_witness_DecodeOfEncodeIsTheInstruction :
    (Instr.shl .l1 .l2 1).wellFormed = true ∧ (Instr.shr .l7 .d 8).wellFormed = true := by decide

theorem test_witness_DecodingFollowsOpcodeTable :
    decode 0x298A = .ok (.ltl .l1 10) ∧ (opcodeRow .ltl).covers 0x298A = true ∧
      (opcodeRow .dtc).covers 0x298A = false := by decide

/-- The start state with an instruction word at the PC. -/
def placed (words : List (Word × Word)) (first : Word) : State := (start words).placeAtPc first 0x0000

theorem test_witness_StepRunsTheDecodedInstruction :
    let s := placed [] 0x298A
    s.runEnded = false ∧ decode s.fetch = .ok (.ltl .l1 10) ∧ s.irq = [] := by decide

theorem test_witness_StepRunsTheDecodedInstruction_quiet :
    let s := (placed [] 0x298A).setIrq [.quiet, .request 0x0200]
    s.runEnded = false ∧ decode s.fetch = .ok (.ltl .l1 10) ∧ s.irq = .quiet :: [.request 0x0200] := by decide

theorem test_witness_RunningMachineAlwaysSteps : (placed [] 0xFFFF).runEnded = false := by decide

theorem test_witness_NoStepAfterRunEnded : ({ start [] with runEnded := true } : State).runEnded = true := by decide

theorem test_witness_StepKeepsMemoriesCanonical :
    let s := placed [(0xFF03, 0xCAFE), (0xFF02, 0xFFFF)] 0x6B8A
    s.inv = true ∧ ∃ t, step s = .next t := ⟨by decide, _, rfl⟩

theorem test_witness_OnlyCallAndReturnMoveHiddenRegisters :
    (Instr.add .d .d .d).mnemonic ≠ .jsr ∧ (Instr.add .d .d .d).mnemonic ≠ .rts ∧
      Instr.jsr 0xFFF = .jsr 0xFFF ∧ (Instr.rts 0).mnemonic = .rts := by decide

theorem test_witness_OnlyStoWritesMainRam : (Instr.cpu .d 0).mnemonic ≠ .sto := by decide

theorem test_witness_OnlyCpuReachesThePlatform : (Instr.rbf .d 0).mnemonic ≠ .cpu := by decide

theorem test_witness_StoredWordIsSeenByTheNextInstruction :
    let s := placed [(0xFF01, 0x1000), (0xFF02, 0x0100)] 0x699A
    s.quiet = true ∧ decode s.fetch = .ok (.sto .l1 .l2 1) ∧ s.offs .l2 1 = s.pc + 1 := by decide

theorem test_witness_StoredWordIsSeenByTheNextInstruction_second :
    let s := placed [(0xFF01, 0x1000), (0xFF02, 0x0100)] 0x69AA
    s.quiet = true ∧ decode s.fetch = .ok (.sto .l1 .l2 2) ∧ s.offs .l2 2 = s.pc + 2 := by decide

theorem test_witness_ReturnRestoresTheCaller :
    ∃ t u : State, exec (.jsr 0x29C) (start []) = .next t ∧ u = t.setPc 0x0200 ∧ u.sfp = t.sfp ∧
      u.readFs u.sfp = t.readFs t.sfp ∧ u.readFs (u.sfp + 8) = t.readFs (t.sfp + 8) :=
  ⟨_, _, rfl, rfl, rfl, rfl, rfl⟩

theorem test_witness_CalleeAliasesNameCallerRegisters :
    frameIndex .r = some 0 ∧ frameIndex .l1 = some 1 ∧ frameIndex .l4 = some 4 ∧ frameIndex .l7 = some 7 := by decide

theorem test_witness_NestedCallsGrowDownNestedInterruptsGrowUp :
    let s := (start []).setIrq [.request 0x0200, .request 0x0300, .quiet]
    s.runEnded = false ∧ s.irq = [0x0200, 0x0300].map PlatformEvent.request ++ [.quiet] := by decide

theorem test_witness_InterruptEntryBanksD :
    let s := (start []).setIrq [.request 0x0200, .quiet]
    s.runEnded = false ∧ s.irq = .request 0x0200 :: [.quiet] := by decide

theorem test_witness_InterruptCompletionUnbanksD :
    let s := ((start []).setIfp 4).setIrq [.handled 0x0100]
    s.runEnded = false ∧ s.irq = .handled 0x0100 :: [] := by decide

theorem test_witness_NestedInterruptsUnwind :
    let s := (start []).setIrq [.request 0x0200, .request 0x0300, .handled 0x0200, .handled 0x0100, .quiet]
    ([0x0200, 0x0300] : List Word).length = ([0x0200, 0x0100] : List Word).length ∧ s.runEnded = false ∧
      s.irq = [0x0200, 0x0300].map PlatformEvent.request ++
        ([0x0200, 0x0100].map PlatformEvent.handled ++ [.quiet]) := by decide

theorem test_witness_WithoutRequestsIfpNeverMoves :
    (placed [] 0x00FE).irq = [] ∧ ∃ t, steps 1 (placed [] 0x00FE) = some t := ⟨rfl, _, rfl⟩

theorem test_witness_AssembledBranchReachesItsLabel :
    branchField (((0x0100 + 63 : Nat) : Int) - ((0x0100 : Nat) : Int)) = some 0x3F ∧
      branchField (((0x0100 - 64 : Nat) : Int) - ((0x0100 : Nat) : Int)) = some 0x40 ∧
      (start []).pc = BitVec.ofNat 16 0x0100 ∧ (start []).readReg .l1 = 0 ∧
      (start [(0xFF01, 0x8000)]).pc = BitVec.ofNat 16 0x0100 ∧ (start [(0xFF01, 0x8000)]).readReg .l1 ≠ 0 := by decide

end Sys2Proof.Tests
end

section
/-! PROOFS. The step at a quiet boundary (R10, R176): what a boundary with no event, or with a quiet one, comes to, and
that the step there is the instruction fetched. -/

namespace Sys2Proof.Machine

/-- Taking events off the list leaves the word at the PC alone. -/
@[simp] theorem State.fetch_setIrq (s : State) (events : List PlatformEvent) : (s.setIrq events).fetch = s.fetch := rfl

theorem State.boundary_of_irq_nil {s : State} (hr : s.runEnded = false) (hi : s.irq = []) : s.boundary = .run s := by
  simp [State.boundary, hr, hi]

theorem State.boundary_of_irq_quiet {s : State} {rest : List PlatformEvent} (hr : s.runEnded = false)
    (hi : s.irq = .quiet :: rest) : s.boundary = .run (s.setIrq rest) := by
  simp [State.boundary, hr, hi]

/-- Fetch, decode, execute: once the word at the PC decodes, only the execution is left. -/
theorem runInstr_of_decode {s : State} {i : Instr} (hd : decode s.fetch = .ok i) : runInstr s = exec i s := by
  simp only [runInstr, hd]

/-- A step at a boundary where an instruction runs is the execution of the instruction fetched. -/
theorem step_of_boundary_run {s t : State} {i : Instr} (hb : s.boundary = .run t) (hd : decode t.fetch = .ok i) :
    step s = exec i t := by
  simp only [step, hb, runInstr_of_decode hd]

/-- Settles O9, by the two kinds of boundary at which an instruction runs. In the second the event is taken off before
the fetch, which reads the same word. -/
theorem stepRunsTheDecodedInstruction : Obligations.StepRunsTheDecodedInstruction := by
  intro s i hr hd
  refine ⟨fun hi => ?_, fun rest hi => ?_⟩
  · exact step_of_boundary_run (State.boundary_of_irq_nil hr hi) hd
  · have hd' : decode (s.setIrq rest).fetch = .ok i := by rwa [State.fetch_setIrq]
    exact step_of_boundary_run (State.boundary_of_irq_quiet hr hi) hd'

end Sys2Proof.Machine
end

section
/-! PROOFS. The effect of an instruction, said once for all 24: JSR and RTS change the frame, every other instruction is
made of register writes, PC changes, a store if it is STO and a platform exchange if it is CPU. What no such change
touches, no instruction touches. -/

namespace Sys2Proof.Machine

/-! The 22 instructions that stay in their frame. -/

/-- What an instruction of mnemonic `m` that neither calls nor returns can make of a state. -/
inductive State.Effect (m : Mnemonic) (s : State) : State → Prop
  | refl : State.Effect m s s
  | setPc {t : State} (v : Word) : State.Effect m s t → State.Effect m s (t.setPc v)
  | writeReg {t : State} (x : Reg) (v : Word) : State.Effect m s t → State.Effect m s (t.writeReg x v)
  | memWrite {t : State} (a v : Word) : m = .sto → State.Effect m s t → State.Effect m s (t.memWrite a v)
  | transfer {t : State} (l : Reg) (code : BitVec 7) (answer : PlatformAnswer) :
      m = .cpu → State.Effect m s t → State.Effect m s (t.transfer l code answer)

/-- A register write and the way to the next word: the whole of most instructions. -/
theorem State.Effect.write_advance {m : Mnemonic} {s : State} (x : Reg) (v n : Word) :
    s.Effect m ((s.writeReg x v).advance n) :=
  .setPc _ (.writeReg x v .refl)

theorem State.Effect.branchIf {m : Mnemonic} {s : State} (taken : Bool) (seven : BitVec 7) :
    s.Effect m (s.branchIf taken seven) := by
  unfold State.branchIf
  split <;> exact .setPc _ .refl

theorem State.Effect.storeSum {m : Mnemonic} {s : State} (l : Reg) (a b : Word) : s.Effect m (s.storeSum l a b) :=
  .setPc _ (.writeReg .d _ (.writeReg l _ .refl))

/-- Every instruction but JSR and RTS answers a next state, by an effect of its mnemonic. -/
theorem exec_effect {i : Instr} (s : State) (hj : i.mnemonic ≠ .jsr) (hr : i.mnemonic ≠ .rts) :
    ∃ t, exec i s = .next t ∧ s.Effect i.mnemonic t := by
  cases i with
  | cpu l code => exact ⟨_, rfl, .setPc _ (.transfer l code _ rfl .refl)⟩
  | set l seven =>
    refine ⟨_, rfl, ?_⟩
    split <;> exact .write_advance l _ _
  | rbf l seven | rbt l seven => exact ⟨_, rfl, .branchIf _ seven⟩
  | dtc l seven => exact ⟨_, rfl, .setPc _ (.writeReg .d _ (.writeReg l _ .refl))⟩
  | ltl l seven | eql l seven | gtl l seven => exact ⟨_, rfl, .write_advance .d _ 1⟩
  | jmp l r1 lor => exact ⟨_, rfl, .setPc _ (.writeReg l _ .refl)⟩
  | ltr l r1 lor | eqr l r1 lor | gtr l r1 lor => exact ⟨_, rfl, .write_advance .d _ 1⟩
  | lod l r1 x | shl l r1 x | shr l r1 x | get l r1 x => exact ⟨_, rfl, .write_advance l _ 1⟩
  | sto l r1 lor => exact ⟨_, rfl, .setPc _ (.memWrite _ _ rfl .refl)⟩
  | jsr key => exact absurd rfl hj
  | rts code => exact absurd rfl hr
  | and l r2 r1 | ior l r2 r1 | eor l r2 r1 => exact ⟨_, rfl, .write_advance l _ 1⟩
  | add l r2 r1 | sub l r2 r1 => exact ⟨_, rfl, .storeSum l _ _⟩

/-- An effect keeps SFP, IFP and CFK. -/
theorem State.Effect.sameHidden {m : Mnemonic} {s t : State} (h : s.Effect m t) : s.sameHidden t := by
  induction h with
  | refl => exact ⟨rfl, rfl, rfl⟩
  | setPc v _ ih | writeReg x v _ ih | memWrite a v _ _ ih | transfer l code answer _ _ ih => exact ih

theorem State.inv_setPc {s : State} (v : Word) (h : s.inv = true) : (s.setPc v).inv = true :=
  State.inv_congr (State.setPc_fs s v) (State.setPc_ram s v) h

theorem State.inv_popFrame {s : State} (saved : Word) (h : s.inv = true) : (s.popFrame saved).inv = true :=
  State.inv_congr (State.popFrame_fs s saved) (State.popFrame_ram s saved) h

theorem State.inv_setIrq {s : State} (events : List PlatformEvent) (h : s.inv = true) :
    (s.setIrq events).inv = true :=
  State.inv_congr (State.setIrq_fs s events) (State.setIrq_ram s events) h

/-- An effect keeps both memories in canonical form. -/
theorem State.Effect.inv {m : Mnemonic} {s t : State} (h : s.Effect m t) (hs : s.inv = true) : t.inv = true := by
  induction h with
  | refl => exact hs
  | setPc v _ ih => exact State.inv_setPc v ih
  | writeReg x v _ ih => exact State.inv_writeReg x v ih
  | memWrite a v _ _ ih => exact State.inv_memWrite a v ih
  | transfer l code answer _ _ ih => exact State.inv_transfer l code answer ih

/-! JSR, RTS and the division of the instructions. -/

/-- JSR answers the pushed frame with its return address `pc + 2`, at the target (R140). -/
theorem exec_jsr (key : FrameKey) (s : State) :
    ∃ target, exec (.jsr key) s = .next ((s.pushFrame key (s.pc + 2)).setPc target) := ⟨_, rfl⟩

/-- RTS answers the state after the write of D with the frame left by its own FK word (R141). -/
theorem exec_rts (code : BitVec 12) (s : State) :
    ∃ target, exec (.rts code) s =
      .next (((s.writeD (zext12 code)).setPc target).popFrame (s.readFs (s.sfp + 8))) := ⟨_, rfl⟩

theorem jsr_or_rts_or_neither (i : Instr) :
    (∃ key, i = .jsr key) ∨ (∃ code, i = .rts code) ∨ (i.mnemonic ≠ .jsr ∧ i.mnemonic ≠ .rts) := by
  cases i with
  | jsr key => exact .inl ⟨key, rfl⟩
  | rts code => exact .inr (.inl ⟨code, rfl⟩)
  | _ => exact .inr (.inr ⟨nofun, nofun⟩)

/-- No instruction takes a memory out of canonical form. -/
theorem exec_keeps_inv {i : Instr} {s t : State} (hs : s.inv = true) (h : exec i s = .next t) : t.inv = true := by
  rcases jsr_or_rts_or_neither i with ⟨key, rfl⟩ | ⟨code, rfl⟩ | ⟨hj, hr⟩
  · obtain ⟨target, he⟩ := exec_jsr key s
    obtain rfl := Host.Outcome.next.inj (he.symm.trans h)
    exact State.inv_setPc target (State.inv_pushFrame key (s.pc + 2) hs)
  · obtain ⟨target, he⟩ := exec_rts code s
    obtain rfl := Host.Outcome.next.inj (he.symm.trans h)
    exact State.inv_popFrame _ (State.inv_setPc target (State.inv_writeReg .d (zext12 code) hs))
  · obtain ⟨t', he, heff⟩ := exec_effect s hj hr
    obtain rfl := Host.Outcome.next.inj (he.symm.trans h)
    exact heff.inv hs

/-- Settles O13: an interrupt movement touches no memory, and an instruction writes memory only by whole words. -/
theorem stepKeepsMemoriesCanonical : Obligations.StepKeepsMemoriesCanonical := by
  intro s t hs h
  obtain ⟨_, ⟨a, rest, _, rfl⟩ | ⟨a, rest, _, rfl⟩ | ⟨i, rest, _, _, he⟩⟩ := step_cases h
  · exact State.inv_congr rfl rfl hs
  · exact State.inv_congr rfl rfl hs
  · exact exec_keeps_inv (State.inv_setIrq rest hs) he

/-- Settles O36: a pushed frame, a popped frame, or an effect, which keeps the hidden registers. -/
theorem onlyCallAndReturnMoveHiddenRegisters : Obligations.OnlyCallAndReturnMoveHiddenRegisters := by
  intro i s
  rcases jsr_or_rts_or_neither i with ⟨key, rfl⟩ | ⟨code, rfl⟩ | ⟨hj, hr⟩
  · obtain ⟨target, he⟩ := exec_jsr key s
    exact ⟨_, he, by simp [Instr.mnemonic, subFrameWords]⟩
  · obtain ⟨target, he⟩ := exec_rts code s
    exact ⟨_, he, by simp [Instr.mnemonic, subFrameWords]⟩
  · obtain ⟨t, he, heff⟩ := exec_effect s hj hr
    obtain ⟨hsfp, hifp, hcfk⟩ := heff.sameHidden
    refine ⟨t, he, hifp, by simp [hsfp, hj, hr], fun _ _ => hcfk, ?_, fun h => absurd h hr⟩
    rintro key rfl
    exact absurd rfl hj

end Sys2Proof.Machine
end

section
/-! PROOFS. Registers as words of the frame store: where a selector, A1 to A4 and a register of the subroutine frame lie
(R22, R24), and what is seen of a register write (R25). -/

namespace Sys2Proof.Machine

/-- The slots of a frame key, counted from its high end, are 3 bits each (R17). -/
theorem keySlot_eq_shift (key : FrameKey) (n : Fin 4) : keySlot key n = (key >>> (3 * (3 - n.val))).setWidth 3 := by
  match n with
  | 0 | 1 | 2 | 3 => rfl

/-- Settles O1, over the three groups of registers: interrupt frame, A1 to A4, subroutine frame. -/
theorem selectorResolvesToFrameWord : Obligations.SelectorResolvesToFrameWord := by
  intro s sel
  obtain ⟨x, rfl⟩ : ∃ x, selectorOf x = sel := ⟨_, selectorOf_regOfSelector sel⟩
  rw [regOfSelector_selectorOf]
  cases x with
  | d | e | sp | dp => rfl
  | a1 | a2 | a3 | a4 =>
    show s.sfp + 9 + (keySlot s.cfk _).zeroExtend 16 = _
    rw [keySlot_eq_shift]
    rfl
  | r | l1 | l2 | l3 | l4 | l5 | l6 | l7 => rfl

/-- Settles O2. -/
theorem registerWriteIsSeenThroughEveryName : Obligations.RegisterWriteIsSeenThroughEveryName :=
  fun s x y v => ⟨rfl, s.readReg_writeReg x y v, s.changesOnlyFs_writeReg x v (List.mem_singleton.mpr rfl), rfl⟩

/-- A register that has a frame index lies at that index of the subroutine frame (R143). -/
theorem State.ref_of_frameIndex (s : State) {x : Reg} {k : BitVec 3} (h : frameIndex x = some k) :
    s.ref x = s.sfp + k.zeroExtend 16 := by
  cases x with
  | r | l1 | l2 | l3 | l4 | l5 | l6 | l7 => cases h; rfl
  | _ => cases h

/-- One frame further down, one of A1 to A4 whose slot is the index of a caller's register names that register. -/
theorem State.aliasAddr_of_caller {s t : State} {n : Fin 4} {x : Reg} {k : BitVec 3} (hsfp : t.sfp = s.sfp - 9)
    (hslot : keySlot t.cfk n = k) (hx : frameIndex x = some k) : t.aliasAddr n = s.ref x := by
  rw [s.ref_of_frameIndex hx, State.aliasAddr, hsfp, hslot, subFrameWords, BitVec.sub_add_cancel]

/-- Settles O41: the frame made by JSR lies 9 words below the caller's, and IFP stays. -/
theorem calleeAliasesNameCallerRegisters : Obligations.CalleeAliasesNameCallerRegisters := by
  intro s x1 x2 x3 x4 k1 k2 k3 k4 h1 h2 h3 h4
  obtain ⟨slot0, slot1, slot2, slot3⟩ := keySlot_frameKey k1 k2 k3 k4
  obtain ⟨target, he⟩ := exec_jsr (frameKey k1 k2 k3 k4) s
  exact ⟨_, he, State.aliasAddr_of_caller rfl slot0 h1, State.aliasAddr_of_caller rfl slot1 h2,
    State.aliasAddr_of_caller rfl slot2 h3, State.aliasAddr_of_caller rfl slot3 h4, rfl, rfl, rfl, rfl⟩

end Sys2Proof.Machine
end

section
/-! PROOFS. Runs of calls and of interrupt requests (R26), by induction over the list of them, and the values at
reset. -/

namespace Sys2Proof.Machine

theorem execAll_cons {i : Instr} {s t : State} (is : List Instr) (h : exec i s = .next t) :
    execAll (i :: is) s = execAll is t := by
  simp only [execAll, h]

theorem steps_succ {s t : State} (k : Nat) (h : step s = .next t) : steps (k + 1) s = steps k t := by
  simp only [steps, h]

/-- The step at a boundary with an interrupt request is the entry alone (R173, R176). -/
theorem step_of_irq_request {s : State} {handler : Word} {rest : List PlatformEvent} (hr : s.runEnded = false)
    (hi : s.irq = .request handler :: rest) : step s = .next ((s.setIrq rest).enterInterrupt handler) := by
  have hb : s.boundary = .moved ((s.setIrq rest).enterInterrupt handler) := by simp [State.boundary, hr, hi]
  simp only [step, hb]

/-- Calls in a row, whatever their keys, take SFP down 9 words each. -/
theorem execAll_jsr_sfp (keys : List FrameKey) (s : State) :
    ∃ t, execAll (keys.map Instr.jsr) s = some t ∧ t.sfp = s.sfp - BitVec.ofNat 16 (9 * keys.length) := by
  induction keys generalizing s with
  | nil => exact ⟨s, rfl, by simp⟩
  | cons key keys ih =>
    obtain ⟨target, he⟩ := exec_jsr key s
    obtain ⟨t, ht, hsfp⟩ := ih ((s.pushFrame key (s.pc + 2)).setPc target)
    refine ⟨t, (execAll_cons _ he).trans ht, ?_⟩
    rw [hsfp, State.setPc_sfp, State.pushFrame_sfp, subFrameWords, List.length_cons]
    bv_omega

/-- Interrupt requests in a row take IFP up 4 words each. -/
theorem steps_requests_ifp (handlers : List Word) (rest : List PlatformEvent) (s : State) (hr : s.runEnded = false)
    (hi : s.irq = handlers.map PlatformEvent.request ++ rest) :
    ∃ t, steps handlers.length s = some t ∧ t.ifp = s.ifp + BitVec.ofNat 16 (4 * handlers.length) := by
  induction handlers generalizing s with
  | nil => exact ⟨s, rfl, by simp⟩
  | cons handler handlers ih =>
    obtain ⟨t, ht, hifp⟩ := ih ((s.setIrq (handlers.map .request ++ rest)).enterInterrupt handler) hr rfl
    refine ⟨t, (steps_succ _ (step_of_irq_request hr hi)).trans ht, ?_⟩
    rw [hifp, State.enterInterrupt_ifp, State.setIrq_ifp, intFrameWords, List.length_cons]
    bv_omega

/-- Settles O42, by induction over the calls and over the requests. -/
theorem nestedCallsGrowDownNestedInterruptsGrowUp : Obligations.NestedCallsGrowDownNestedInterruptsGrowUp :=
  ⟨execAll_jsr_sfp, steps_requests_ifp⟩

/-! Reset (R200). -/

/-- A memory that lists nothing reads zero everywhere. -/
theorem Memory.readWord_nil (a : Word) : Memory.readWord [] a = 0 := by
  show wordOfBytes unlistedByte unlistedByte = 0
  decide

/-- Settles O15. -/
theorem resetStartsAtAddressZero : Obligations.ResetStartsAtAddressZero := ⟨rfl, rfl⟩

/-- Settles O16: the registers are the named parameters, and neither memory lists anything. -/
theorem resetValuesOfTheModelsChoice : Obligations.ResetValuesOfTheModelsChoice :=
  ⟨rfl, rfl, rfl, fun a => ⟨Memory.readWord_nil a, Memory.readWord_nil a⟩, rfl, rfl⟩

end Sys2Proof.Machine
end

section
/-! PROOFS. The two memories (R18, R40): a canonical memory is determined by its reads, main RAM and frame store are
separate, which instructions reach main RAM or the platform, and that a stored word is seen at once (R53). -/

namespace Sys2Proof.Machine

/-! The canonical form lists exactly the bytes that do not read as an unlisted one. -/

/-- In a memory of rising addresses every listed cell is the one that is read. -/
theorem Memory.readByte_of_mem {m : Memory} {cell : Host.Cell}
    (hm : List.Pairwise (fun cell next : Host.Cell => cell.1 < next.1) m) (hc : cell ∈ m) :
    Memory.readByte m cell.1 = cell.2 := by
  induction hm with
  | nil => cases hc
  | cons hhead _ ih =>
    rcases List.mem_cons.mp hc with rfl | hc
    · exact if_pos rfl
    · exact (if_neg (hhead cell hc).ne).trans (ih hc)

/-- A byte that does not read as an unlisted one is listed. -/
theorem Memory.mem_of_readByte_ne {m : Memory} {b : Nat} (h : Memory.readByte m b ≠ unlistedByte) :
    (b, Memory.readByte m b) ∈ m := by
  induction m with
  | nil => exact absurd rfl h
  | cons head rest ih =>
    simp only [Memory.readByte] at h ⊢
    split at h
    · next hb => simp [← hb]
    · next hb => simp [hb, ih h]

/-- The cells of a canonical memory, told from its reads alone. -/
theorem Memory.mem_iff_readByte {m : Memory} {words : Nat} (hm : Memory.wf m words = true) (cell : Host.Cell) :
    cell ∈ m ↔ Memory.readByte m cell.1 = cell.2 ∧ cell.2 ≠ unlistedByte := by
  obtain ⟨hrising, hcells⟩ := (Memory.wf_iff m words).mp hm
  constructor
  · intro hc
    exact ⟨Memory.readByte_of_mem hrising hc, (hcells cell hc).2⟩
  · rintro ⟨hread, hv⟩
    have hc := Memory.mem_of_readByte_ne (hread.symm ▸ hv)
    rwa [hread] at hc

/-- Settles O4: memories that read alike list the same cells, and their rising addresses fix the order. -/
theorem canonicalMemoriesReadingAlikeAreEqual : Obligations.CanonicalMemoriesReadingAlikeAreEqual := by
  intro m m' words hm hm' hread
  have hr : List.Pairwise (InvImage (· < ·) Prod.fst) m := ((Memory.wf_iff m words).mp hm).1
  have hr' : List.Pairwise (InvImage (· < ·) Prod.fst) m' := ((Memory.wf_iff m' words).mp hm').1
  refine hr.eq_of_mem_iff hr' fun cell => ?_
  rw [Memory.mem_iff_readByte hm, Memory.mem_iff_readByte hm', hread]

/-! Main RAM and frame store. -/

@[simp] theorem State.readFs_memWrite (s : State) (a v c : Word) : (s.memWrite a v).readFs c = s.readFs c := rfl

@[simp] theorem State.memRead_writeFs (s : State) (a v c : Word) : (s.writeFs a v).memRead c = s.memRead c := rfl

/-- Reading any word of the frame store after a write of one. -/
theorem State.readFs_writeFs (s : State) (a c v : Word) :
    (s.writeFs a v).readFs c = if c = a then v else s.readFs c :=
  Memory.readWord_writeWord s.fs a c v

/-- Settles O3. -/
theorem mainRamReadAfterWrite : Obligations.MainRamReadAfterWrite := fun s a c v =>
  ⟨s.memRead_memWrite a c v, s.readFs_memWrite a v c, s.memRead_writeFs a v c, s.readFs_writeFs a c v⟩

/-! What an instruction leaves of main RAM and of the exchange with the platform. -/

/-- Only an effect of STO writes main RAM. -/
theorem State.Effect.ram {m : Mnemonic} {s t : State} (h : s.Effect m t) (hm : m ≠ .sto) : t.ram = s.ram := by
  induction h with
  | refl => rfl
  | setPc v _ ih | writeReg x v _ ih | transfer l code answer _ _ ih => exact ih
  | memWrite a v hsto _ _ => exact absurd hsto hm

/-- No effect takes an event off the list. -/
theorem State.Effect.irq {m : Mnemonic} {s t : State} (h : s.Effect m t) : t.irq = s.irq := by
  induction h with
  | refl => rfl
  | setPc v _ ih | writeReg x v _ ih | memWrite a v _ _ ih | transfer l code answer _ _ ih => exact ih

/-- Only an effect of CPU passes anything to the platform. -/
theorem State.Effect.sameOutside {m : Mnemonic} {s t : State} (h : s.Effect m t) (hm : m ≠ .cpu) :
    s.sameOutside t := by
  induction h with
  | refl => exact ⟨rfl, rfl, rfl⟩
  | setPc v _ ih | writeReg x v _ ih | memWrite a v _ _ ih => exact ih
  | transfer l code answer hcpu _ _ => exact absurd hcpu hm

/-- Settles O37: JSR and RTS write only the frame store, and so does every effect but STO's. -/
theorem onlyStoWritesMainRam : Obligations.OnlyStoWritesMainRam := by
  intro i s
  rcases jsr_or_rts_or_neither i with ⟨key, rfl⟩ | ⟨code, rfl⟩ | ⟨hj, hr⟩
  · obtain ⟨target, he⟩ := exec_jsr key s
    exact ⟨_, he, fun _ => Memory.sameBut_refl s.ram []⟩
  · obtain ⟨target, he⟩ := exec_rts code s
    exact ⟨_, he, fun _ => Memory.sameBut_refl s.ram []⟩
  · obtain ⟨t, he, heff⟩ := exec_effect s hj hr
    exact ⟨t, he, fun hsto => heff.ram hsto ▸ Memory.sameBut_refl s.ram []⟩

/-- Settles O38: JSR and RTS leave the platform's fields alone, and so does every effect but CPU's. -/
theorem onlyCpuReachesThePlatform : Obligations.OnlyCpuReachesThePlatform := by
  intro i s
  rcases jsr_or_rts_or_neither i with ⟨key, rfl⟩ | ⟨code, rfl⟩ | ⟨hj, hr⟩
  · obtain ⟨target, he⟩ := exec_jsr key s
    exact ⟨_, he, rfl, fun _ => ⟨rfl, rfl, rfl⟩⟩
  · obtain ⟨target, he⟩ := exec_rts code s
    exact ⟨_, he, rfl, fun _ => ⟨rfl, rfl, rfl⟩⟩
  · obtain ⟨t, he, heff⟩ := exec_effect s hj hr
    exact ⟨t, he, heff.irq, heff.sameOutside⟩

/-! A store is seen by the next instruction. -/

theorem State.quiet_iff (s : State) : s.quiet = true ↔ s.runEnded = false ∧ s.irq = [] := by
  simp [State.quiet]

/-- At a quiet boundary the step is the instruction fetched. -/
theorem step_of_quiet {s : State} {i : Instr} (hq : s.quiet = true) (hd : decode s.fetch = .ok i) :
    step s = exec i s := by
  obtain ⟨hr, hi⟩ := s.quiet_iff.mp hq
  exact step_of_boundary_run (State.boundary_of_irq_nil hr hi) hd

/-- STO answers the state after its one store, at the next word (R125). -/
theorem exec_sto (l r1 : Reg) (lor : BitVec 3) (s : State) :
    exec (.sto l r1 lor) s = .next ((s.memWrite (s.offs r1 lor) (s.readReg l)).advance 1) := rfl

/-- Settles O39: after the store the fetch reads at `pc + 1` and a second word is read one word further. -/
theorem storedWordIsSeenByTheNextInstruction : Obligations.StoredWordIsSeenByTheNextInstruction := by
  intro s l r1 lor hq hd
  refine ⟨_, (step_of_quiet hq hd).trans (exec_sto l r1 lor s), fun ha => ?_, fun ha => ?_⟩
  · show ((s.memWrite (s.offs r1 lor) (s.readReg l)).advance 1).memRead (s.pc + 1) = s.readReg l
    rw [State.memRead_advance, State.memRead_memWrite, if_pos ha.symm]
  · show ((s.memWrite (s.offs r1 lor) (s.readReg l)).advance 1).memRead (s.pc + 1 + 1) = s.readReg l
    have hpc : s.pc + 1 + 1 = s.offs r1 lor := by rw [ha, BitVec.add_assoc]; rfl
    rw [State.memRead_advance, State.memRead_memWrite, if_pos hpc]

end Sys2Proof.Machine
end

section
/-! PROOFS. Decoder and encoder (R61 to R74): the operation code of a word says which row of the opcode table covers it
and which instruction it is; the row and the operands that stand in the word make the word again. -/

namespace Sys2Proof

/-! The opcode table, read from the side of the operation code (R63, R70). -/

/-- The mnemonic of an operation code, a row or half a row of the matrix. -/
def mnemonicOfOpcode (opcode : BitVec 5) : Mnemonic :=
  match opcode.toNat with
  | 0 => .cpu
  | 1 => .set
  | 2 => .rbf
  | 3 => .rbt
  | 4 => .dtc
  | 5 => .ltl
  | 6 => .eql
  | 7 => .gtl
  | 8 => .jmp
  | 9 => .ltr
  | 10 => .eqr
  | 11 => .gtr
  | 12 => .lod
  | 13 => .sto
  | 14 => .shl
  | 15 => .shr
  | 16 | 17 => .get
  | 18 | 19 => .jsr
  | 20 | 21 => .rts
  | 22 | 23 => .and
  | 24 | 25 => .ior
  | 26 | 27 => .eor
  | 28 | 29 => .add
  | _ => .sub

/-- The instruction of a given mnemonic whose operands are the constituents of a word. -/
def instrOfRow (m : Mnemonic) (iw : Word) : Instr :=
  let l := regOfSelector (fieldL iw)
  let r1 := regOfSelector (fieldR1 iw)
  let r2 := regOfSelector (fieldR2 iw)
  match m with
  | .cpu => .cpu l (fieldSeven iw)
  | .set => .set l (fieldSeven iw)
  | .rbf => .rbf l (fieldSeven iw)
  | .rbt => .rbt l (fieldSeven iw)
  | .dtc => .dtc l (fieldSeven iw)
  | .ltl => .ltl l (fieldSeven iw)
  | .eql => .eql l (fieldSeven iw)
  | .gtl => .gtl l (fieldSeven iw)
  | .jmp => .jmp l r1 (fieldR2Lor iw)
  | .ltr => .ltr l r1 (fieldR2Lor iw)
  | .eqr => .eqr l r1 (fieldR2Lor iw)
  | .gtr => .gtr l r1 (fieldR2Lor iw)
  | .lod => .lod l r1 (fieldR2Lor iw)
  | .sto => .sto l r1 (fieldR2Lor iw)
  | .shl => .shl l r1 ((fieldR2Lor iw).toNat + 1)
  | .shr => .shr l r1 ((fieldR2Lor iw).toNat + 1)
  | .get => .get l r1 (fieldR2 iw)
  | .jsr => .jsr (fieldTwelve iw)
  | .rts => .rts (fieldTwelve iw)
  | .and => .and l r2 r1
  | .ior => .ior l r2 r1
  | .eor => .eor l r2 r1
  | .add => .add l r2 r1
  | .sub => .sub l r2 r1

/-- What the decoder does, with no case for a refusal: the operation code alone chooses the row (R72). -/
theorem decode_eq_instrOfRow (iw : Word) : decode iw = .ok (instrOfRow (mnemonicOfOpcode (opcodeOf iw)) iw) := by
  have hlt : (opcodeOf iw).toNat < 32 := (opcodeOf iw).isLt
  unfold decode mnemonicOfOpcode
  generalize (opcodeOf iw).toNat = n at hlt
  interval_cases n <;> rfl

@[simp] theorem mnemonic_instrOfRow (m : Mnemonic) (iw : Word) : (instrOfRow m iw).mnemonic = m := by
  cases m <;> rfl

/-- A row looks at no other bits of a word than G and R2_MSB. -/
theorem covers_eq_covers_opcode (m : Mnemonic) (iw : Word) :
    (opcodeRow m).covers iw = (opcodeRow m).covers (sevenWord (fieldG iw) (fieldR2Msb iw) .d 0) := by
  have hmask : 0xF080 &&& (opcodeRow m).mask = (opcodeRow m).mask := by cases m <;> rfl
  rw [← and_firstMask, OpcodeRow.covers, OpcodeRow.covers, BitVec.and_assoc, hmask]

/-- Of the rows exactly that of the operation code covers a word (R71). -/
theorem covers_iff_mnemonicOfOpcode (m : Mnemonic) (iw : Word) :
    (opcodeRow m).covers iw = true ↔ mnemonicOfOpcode (opcodeOf iw) = m := by
  rw [covers_eq_covers_opcode, opcodeOf]
  generalize fieldG iw = g
  generalize fieldR2Msb iw = msb
  revert g msb
  cases m <;> decide

/-- Settles O7: the row that covers the word is the one the decoder has chosen. -/
theorem decodingFollowsOpcodeTable : Obligations.DecodingFollowsOpcodeTable := by
  intro iw i m hd
  rw [decode_eq_instrOfRow] at hd
  obtain rfl := Except.ok.inj hd
  rw [mnemonic_instrOfRow, covers_iff_mnemonicOfOpcode, eq_comm]

/-! From the word to the instruction and back. -/

/-- The count of a shift field has that field (R67). -/
@[simp] theorem shiftField_toNat_add_one (lor : BitVec 3) : shiftField (lor.toNat + 1) = lor := by
  simp [shiftField]

theorem shiftCountOk_toNat_add_one (lor : BitVec 3) : shiftCountOk (lor.toNat + 1) = true := by
  have := lor.isLt
  simp [shiftCountOk]
  omega

theorem wellFormed_instrOfRow (m : Mnemonic) (iw : Word) : (instrOfRow m iw).wellFormed = true := by
  cases m with
  | shl | shr => exact shiftCountOk_toNat_add_one (fieldR2Lor iw)
  | _ => rfl

/-! A word is its own constituents, in each of the four layouts (R61). -/

theorem sevenWord_fields (iw : Word) :
    sevenWord (fieldG iw) (fieldR2Msb iw) (regOfSelector (fieldL iw)) (fieldSeven iw) = iw := by
  apply BitVec.eq_of_toNat_eq
  rw [sevenWord_toNat, selectorOf_regOfSelector, fieldG_toNat, fieldR2Msb_toNat, fieldL_toNat, fieldSeven_toNat]
  have := iw.isLt
  omega

theorem offsWord_fields (iw : Word) :
    offsWord (fieldG iw) (fieldR2Msb iw) (regOfSelector (fieldL iw)) (regOfSelector (fieldR1 iw)) (fieldR2Lor iw) =
      iw := by
  apply BitVec.eq_of_toNat_eq
  rw [offsWord_toNat, selectorOf_regOfSelector, selectorOf_regOfSelector, fieldG_toNat, fieldR2Msb_toNat, fieldL_toNat,
    fieldR2Lor_toNat, fieldR1_toNat]
  have := iw.isLt
  omega

theorem twelveWord_fields (iw : Word) : twelveWord (fieldG iw) (fieldTwelve iw) = iw := by
  apply BitVec.eq_of_toNat_eq
  rw [twelveWord_toNat, fieldG_toNat, fieldTwelve_toNat]
  have := iw.isLt
  omega

theorem pairWord_fields (iw : Word) :
    pairWord (fieldG iw) (regOfSelector (fieldL iw)) (fieldR2 iw) (regOfSelector (fieldR1 iw)) = iw := by
  apply BitVec.eq_of_toNat_eq
  rw [pairWord_toNat, selectorOf_regOfSelector, selectorOf_regOfSelector, fieldG_toNat, fieldL_toNat, fieldR2_toNat,
    fieldR1_toNat]
  have := iw.isLt
  omega

theorem fieldG_and (iw mask : Word) : fieldG (iw &&& mask) = fieldG iw &&& fieldG mask := BitVec.extractLsb'_and

theorem fieldR2Msb_and (iw mask : Word) : fieldR2Msb (iw &&& mask) = fieldR2Msb iw &&& fieldR2Msb mask :=
  BitVec.extractLsb'_and

/-- The rows of mask F080h agree in G and R2_MSB with the words they cover. -/
theorem fields_of_covers_first {m : Mnemonic} {pattern iw : Word}
    (h : (OpcodeRow.mk m 0xF080 pattern).covers iw = true) :
    fieldG iw = fieldG pattern ∧ fieldR2Msb iw = fieldR2Msb pattern := by
  replace h : iw &&& 0xF080 = pattern := beq_iff_eq.mp h
  subst h
  have hg : fieldG 0xF080 = BitVec.allOnes 4 := by decide
  have hmsb : fieldR2Msb 0xF080 = BitVec.allOnes 1 := by decide
  rw [fieldG_and, fieldR2Msb_and, hg, hmsb, BitVec.and_allOnes, BitVec.and_allOnes]
  exact ⟨rfl, rfl⟩

/-- The rows of mask F000h agree in G with the words they cover. -/
theorem fieldG_of_covers_second {m : Mnemonic} {pattern iw : Word}
    (h : (OpcodeRow.mk m 0xF000 pattern).covers iw = true) : fieldG iw = fieldG pattern := by
  replace h : iw &&& 0xF000 = pattern := beq_iff_eq.mp h
  subst h
  have hg : fieldG 0xF000 = BitVec.allOnes 4 := by decide
  rw [fieldG_and, hg, BitVec.and_allOnes]

/-- The instruction that a covering row reads from a word has that word. -/
theorem encode_instrOfRow {m : Mnemonic} {iw : Word} (h : (opcodeRow m).covers iw = true) :
    encode (instrOfRow m iw) = iw := by
  cases m with
  | cpu | set | rbf | rbt | dtc | ltl | eql | gtl =>
    obtain ⟨hg, hmsb⟩ := fields_of_covers_first h
    have hiw := sevenWord_fields iw
    rwa [hg, hmsb] at hiw
  | jmp | ltr | eqr | gtr | lod | sto =>
    obtain ⟨hg, hmsb⟩ := fields_of_covers_first h
    have hiw := offsWord_fields iw
    rwa [hg, hmsb] at hiw
  | shl | shr =>
    obtain ⟨hg, hmsb⟩ := fields_of_covers_first h
    have hiw := offsWord_fields iw
    rw [hg, hmsb, ← shiftField_toNat_add_one (fieldR2Lor iw)] at hiw
    exact hiw
  | jsr | rts =>
    have hiw := twelveWord_fields iw
    rwa [fieldG_of_covers_second h] at hiw
  | get =>
    have hiw := pairWord_fields iw
    rwa [fieldG_of_covers_second h] at hiw
  | and | ior | eor | add | sub =>
    have hiw := pairWord_fields iw
    rw [fieldG_of_covers_second h, ← selectorOf_regOfSelector (fieldR2 iw)] at hiw
    exact hiw

/-- Settles O5: the decoder's instruction is the one that the covering row reads from the word. -/
theorem everyWordIsOneInstruction : Obligations.EveryWordIsOneInstruction := by
  intro iw
  have hcovers : (opcodeRow (mnemonicOfOpcode (opcodeOf iw))).covers iw = true :=
    (covers_iff_mnemonicOfOpcode _ iw).mpr rfl
  exact ⟨_, decode_eq_instrOfRow iw, wellFormed_instrOfRow _ iw, encode_instrOfRow hcovers⟩

/-! From the instruction to the word and back. -/

/-- The row of its mnemonic covers the word of every instruction, well formed or not. -/
theorem covers_encode (i : Instr) : (opcodeRow i.mnemonic).covers (encode i) = true := by
  cases i with
  | cpu l seven => exact Laws.RowMatch.cpu l seven
  | set l seven => exact Laws.RowMatch.set l seven
  | rbf l seven => exact Laws.RowMatch.rbf l seven
  | rbt l seven => exact Laws.RowMatch.rbt l seven
  | dtc l seven => exact Laws.RowMatch.dtc l seven
  | ltl l seven => exact Laws.RowMatch.ltl l seven
  | eql l seven => exact Laws.RowMatch.eql l seven
  | gtl l seven => exact Laws.RowMatch.gtl l seven
  | jmp l r1 lor => exact Laws.RowMatch.jmp l r1 lor
  | ltr l r1 lor => exact Laws.RowMatch.ltr l r1 lor
  | eqr l r1 lor => exact Laws.RowMatch.eqr l r1 lor
  | gtr l r1 lor => exact Laws.RowMatch.gtr l r1 lor
  | lod l r1 lor => exact Laws.RowMatch.lod l r1 lor
  | sto l r1 lor => exact Laws.RowMatch.sto l r1 lor
  | shl l r1 count => exact Laws.RowMatch.shl l r1 count
  | shr l r1 count => exact Laws.RowMatch.shr l r1 count
  | get l r1 r2 => exact Laws.RowMatch.get l r1 r2
  | jsr twelve => exact Laws.RowMatch.jsr twelve
  | rts twelve => exact Laws.RowMatch.rts twelve
  | and l r2 r1 => exact Laws.RowMatch.and l r2 r1
  | ior l r2 r1 => exact Laws.RowMatch.ior l r2 r1
  | eor l r2 r1 => exact Laws.RowMatch.eor l r2 r1
  | add l r2 r1 => exact Laws.RowMatch.add l r2 r1
  | sub l r2 r1 => exact Laws.RowMatch.sub l r2 r1

/-- The field of a count that a word can hold gives the count back (R67). -/
theorem toNat_shiftField_add_one {count : Nat} (h : shiftCountOk count = true) :
    (shiftField count).toNat + 1 = count := by
  have hpos : 1 ≤ count := by simp [shiftCountOk] at h; exact h.1
  rw [shiftField_toNat h, Nat.sub_add_cancel hpos]

/-- A row reads back from the word of its instruction the operands written there. -/
theorem instrOfRow_encode {i : Instr} (hwf : i.wellFormed = true) : instrOfRow i.mnemonic (encode i) = i := by
  cases i with
  | shl l r1 count | shr l r1 count =>
    have hcount : (shiftField count).toNat + 1 = count := toNat_shiftField_add_one hwf
    simp [instrOfRow, Instr.mnemonic, encode, hcount]
  | _ => simp [instrOfRow, Instr.mnemonic, encode]

/-- Settles O6: the row that covers the word of an instruction is its own, and it reads the operands back. -/
theorem decodeOfEncodeIsTheInstruction : Obligations.DecodeOfEncodeIsTheInstruction := by
  intro i hwf
  have hrow : mnemonicOfOpcode (opcodeOf (encode i)) = i.mnemonic :=
    (covers_iff_mnemonicOfOpcode _ _).mp (covers_encode i)
  rw [decode_eq_instrOfRow, hrow, instrOfRow_encode hwf]

/-- Settles O8. -/
theorem wordsWrittenFromTheSpecDecode : Obligations.WordsWrittenFromTheSpecDecode :=
  ⟨rfl, rfl, rfl, rfl, rfl, rfl⟩

end Sys2Proof
end

section
/-! PROOFS. Every boundary of a running machine answers (R72, R170, R176), and a branch to a label arrives there
(R85). -/

namespace Sys2Proof.Machine

/-! Every word runs. -/

/-- No instruction faults or is refused. -/
theorem exec_answers (i : Instr) (s : State) : ∃ t, exec i s = .next t := by
  rcases jsr_or_rts_or_neither i with ⟨key, rfl⟩ | ⟨code, rfl⟩ | ⟨hj, hr⟩
  · obtain ⟨target, he⟩ := exec_jsr key s
    exact ⟨_, he⟩
  · obtain ⟨target, he⟩ := exec_rts code s
    exact ⟨_, he⟩
  · obtain ⟨t, he, _⟩ := exec_effect s hj hr
    exact ⟨t, he⟩

/-- Where an instruction runs, the step answers: the word fetched is an instruction, whatever it is. -/
theorem safeStep_of_boundary_run {s t : State} (hb : s.boundary = .run t) : safeStep s := by
  obtain ⟨u, he⟩ := exec_answers (instrOfRow (mnemonicOfOpcode (opcodeOf t.fetch)) t.fetch) t
  exact ⟨u, (step_of_boundary_run hb (decode_eq_instrOfRow t.fetch)).trans he⟩

theorem safeStep_of_boundary_moved {s t : State} (hb : s.boundary = .moved t) : safeStep s :=
  ⟨t, by simp only [step, hb]⟩

/-- Settles O11, by what the boundary comes to. -/
theorem runningMachineAlwaysSteps : Obligations.RunningMachineAlwaysSteps := by
  intro s hrun
  rcases s.boundary_cases with ⟨hended, _⟩ | ⟨_, _, hb⟩ | ⟨_, _, _, hb⟩ | ⟨_, _, _, _, hb⟩ | ⟨_, _, _, _, hb⟩
  · exact absurd (hended.symm.trans hrun) nofun
  · exact safeStep_of_boundary_run hb
  · exact safeStep_of_boundary_run hb
  · exact safeStep_of_boundary_moved hb
  · exact safeStep_of_boundary_moved hb

/-! Branches to a label. -/

theorem branchField_eq_some {n : Int} {seven : BitVec 7} (h : branchField n = some seven) :
    -64 ≤ n ∧ n ≤ 63 ∧ seven = BitVec.ofInt 7 n := by
  unfold branchField fieldOf at h
  split at h
  · next hrange => exact ⟨hrange.1, hrange.2, (Option.some.inj h).symm⟩
  · cases h

/-- The field of a branch, sign-extended, is the distance it was assembled for (R64, R85). -/
theorem sext7_of_branchField {n : Int} {seven : BitVec 7} (h : branchField n = some seven) :
    sext7 seven = BitVec.ofInt 16 n := by
  obtain ⟨hlow, hhigh, rfl⟩ := branchField_eq_some h
  apply BitVec.eq_of_toInt_eq
  rw [sext7, BitVec.toInt_signExtend_of_le (by decide), BitVec.toInt_ofInt, BitVec.toInt_ofInt,
    Int.bmod_eq_of_le (by omega) (by omega), Int.bmod_eq_of_le (by omega) (by omega)]

/-- A taken branch with the field assembled for a label arrives at the label. -/
theorem State.branchIf_reaches {here target : Nat} {seven : BitVec 7} {s : State} {taken : Bool}
    (hseven : branchField ((target : Int) - (here : Int)) = some seven) (hpc : s.pc = BitVec.ofNat 16 here)
    (htaken : taken = true) : (s.branchIf taken seven).pc = BitVec.ofNat 16 target := by
  rw [State.branchIf, if_pos htaken, State.advance_pc, hpc, sext7_of_branchField hseven,
    ← BitVec.ofInt_natCast, ← BitVec.ofInt_natCast, ← BitVec.ofInt_add, add_sub_cancel]

/-- Settles O47: on such a register each of the two branches is taken. -/
theorem assembledBranchReachesItsLabel : Obligations.AssembledBranchReachesItsLabel := by
  intro here target l seven s hseven hpc
  refine ⟨fun hzero => ⟨_, rfl, ?_⟩, fun hnonzero => ⟨_, rfl, ?_⟩⟩
  · exact State.branchIf_reaches hseven hpc (by rw [hzero, beq_self_eq_true])
  · exact State.branchIf_reaches hseven hpc (bne_iff_ne.mpr hnonzero)

end Sys2Proof.Machine
end

section
/-! PROOFS. The instructions of mode 1 (R100 to R110): each by the rules of what it is made of, a register write, a branch,
a comparison or a platform answer. -/

namespace Sys2Proof.Machine

/-! A register write on the way to the next instruction. -/

/-- A write of a register and then of the PC changes, besides the PC, only the word of that register. -/
theorem State.changesOnlyFs_writeReg_advance (s : State) (x : Reg) (v n : Word) :
    s.changesOnlyFs ((s.writeReg x v).advance n) [s.ref x] :=
  State.changesOnlyFs_trans (s.changesOnlyFs_writeReg x v (List.mem_singleton.mpr rfl))
    (State.changesOnlyFs_setPc _ _ _)

/-- The register written still holds the value after the PC has moved. -/
theorem State.readReg_writeReg_advance (s : State) (x : Reg) (v n : Word) :
    ((s.writeReg x v).advance n).readReg x = v := by
  rw [State.readReg_advance, State.readReg_writeReg_self]

/-! SET (R101). -/

theorem exec_set_of_eq {seven : BitVec 7} (l : Reg) (s : State) (h : seven = fetchLiteral) :
    exec (.set l seven) s = .next ((s.writeReg l s.nextWord).advance 2) :=
  congrArg Host.Outcome.next (if_pos h)

theorem exec_set_of_ne {seven : BitVec 7} (l : Reg) (s : State) (h : seven ≠ fetchLiteral) :
    exec (.set l seven) s = .next ((s.writeReg l (zext7 seven)).advance 1) :=
  congrArg Host.Outcome.next (if_neg h)

/-- Settles O20, by whether the literal is 7Fh. -/
theorem setLoadsALiteral : Obligations.SetLoadsALiteral := by
  intro l seven s
  by_cases h : seven = 0x7F
  · refine ⟨_, exec_set_of_eq l s h, s.changesOnlyFs_writeReg_advance l _ 2, ?_⟩
    rw [if_pos h]
    exact ⟨s.readReg_writeReg_advance l _ 2, rfl⟩
  · refine ⟨_, exec_set_of_ne l s h, s.changesOnlyFs_writeReg_advance l _ 1, ?_⟩
    rw [if_neg h]
    exact ⟨s.readReg_writeReg_advance l _ 1, rfl⟩

/-! RBF and RBT (R102, R103). -/

/-- A branch changes the PC alone. -/
theorem State.branchIf_of_iff {taken : Bool} {p : Prop} [Decidable p] (s : State) (seven : BitVec 7)
    (h : taken = true ↔ p) :
    s.branchIf taken seven = { s with pc := if p then s.pc + seven.signExtend 16 else s.pc + 1 } := by
  unfold State.branchIf
  by_cases hp : p
  · rw [if_pos (h.mpr hp), if_pos hp]; rfl
  · rw [if_neg (mt h.mp hp), if_neg hp]; rfl

/-- Settles O21: the two branches differ in their condition alone. -/
theorem branchesTestTheRegisterForZero : Obligations.BranchesTestTheRegisterForZero := fun _ seven s =>
  ⟨congrArg Host.Outcome.next (s.branchIf_of_iff seven beq_iff_eq),
    congrArg Host.Outcome.next (s.branchIf_of_iff seven bne_iff_ne)⟩

/-! DTC (R104). -/

theorem exec_dtc (l : Reg) (seven : BitVec 7) (s : State) :
    exec (.dtc l seven) s = .next (((s.writeReg l s.pc).writeD (zext7 seven)).setPc s.nextWord) := rfl

/-- Two register writes and a jump change, besides the PC, only the words of the two registers. -/
theorem State.changesOnlyFs_writeReg_writeD_setPc (s : State) (l : Reg) (v w target : Word) :
    s.changesOnlyFs (((s.writeReg l v).writeD w).setPc target) [s.ref l, s.ref .d] := by
  have hl : s.changesOnlyFs (s.writeReg l v) [s.ref l, s.ref .d] := s.changesOnlyFs_writeReg l v (by simp)
  have hd : (s.writeReg l v).changesOnlyFs ((s.writeReg l v).writeD w) [s.ref l, s.ref .d] :=
    State.changesOnlyFs_writeReg _ .d w (by simp)
  exact State.changesOnlyFs_trans (State.changesOnlyFs_trans hl hd) (State.changesOnlyFs_setPc _ _ _)

/-- Settles O22: D is written after L, so the literal remains where both name one word. -/
theorem dtcStoresPcAndParameter : Obligations.DtcStoresPcAndParameter := by
  intro l seven s
  refine ⟨_, exec_dtc l seven s, rfl, ?_, ?_, s.changesOnlyFs_writeReg_writeD_setPc l _ _ _⟩
  · rw [State.readReg_setPc, State.readReg_writeD, if_pos rfl, zext7]
  · rw [State.readReg_setPc, State.readReg_writeD, State.ref_writeReg, State.ref_writeReg,
      State.readReg_writeReg_self, zext7]

/-! LTL, EQL and GTL (R105 to R108). -/

theorem truth_decide (p : Prop) [Decidable p] : truth (decide p) = if p then 1 else 0 := by
  simp only [truth, decide_eq_true_eq]

theorem lessWord_eq_ite (a b : Word) : lessWord a b = if a.toNat < b.toNat then 1 else 0 := truth_decide _

theorem equalWord_eq_ite (a b : Word) : equalWord a b = if a.toNat = b.toNat then 1 else 0 := by
  simp only [equalWord, truth_decide, BitVec.toNat_inj]

theorem greaterWord_eq_ite (a b : Word) : greaterWord a b = if a.toNat > b.toNat then 1 else 0 := truth_decide _

/-- The zero-extended literal is the literal as an unsigned number (R64). -/
theorem zext7_toNat (seven : BitVec 7) : (zext7 seven).toNat = seven.toNat :=
  BitVec.toNat_setWidth_of_le (by decide)

/-- An instruction that only puts a word into D and goes on to the next. -/
theorem exec_writeD_advance {i : Instr} {s : State} {v w : Word} (he : exec i s = .next ((s.writeD v).advance 1))
    (hv : v = w) :
    ∃ t, exec i s = .next t ∧ t.pc = s.pc + 1 ∧ s.changesOnlyFs t [s.ref .d] ∧ t.readReg .d = w :=
  ⟨_, he, rfl, s.changesOnlyFs_writeReg_advance .d v 1, (s.readReg_writeReg_advance .d v 1).trans hv⟩

/-- Settles O23: three words for D, each the comparison of the unsigned numbers. -/
theorem literalComparisonsSetD : Obligations.LiteralComparisonsSetD := by
  intro l seven s
  refine ⟨exec_writeD_advance rfl ?_, exec_writeD_advance rfl ?_, exec_writeD_advance rfl ?_⟩
  · rw [lessWord_eq_ite, zext7_toNat]
  · rw [equalWord_eq_ite, zext7_toNat]
  · rw [greaterWord_eq_ite, zext7_toNat]

/-! CPU (R100, R109, R110). -/

/-- An answer without a result leaves the frame store as it is. -/
theorem State.transfer_fs_of_none {answer : PlatformAnswer} (s : State) (l : Reg) (code : BitVec 7)
    (h : answer.result = none) : (s.transfer l code answer).fs = s.fs := by
  simp only [State.transfer_fs, State.fsAfterAnswer, h]

/-- An answer with a result writes it to the selected register. -/
theorem State.transfer_fs_of_some {answer : PlatformAnswer} {v : Word} (s : State) (l : Reg) (code : BitVec 7)
    (h : answer.result = some v) : (s.transfer l code answer).fs = Memory.writeWord s.fs (s.ref l) v := by
  simp only [State.transfer_fs, State.fsAfterAnswer, h, State.writeReg_fs]

/-- What a result is seen to do: the selected register holds it, and no other word of the frame store changes. -/
theorem State.transfer_of_some {answer : PlatformAnswer} {v : Word} (s : State) (l : Reg) (code : BitVec 7)
    (h : answer.result = some v) :
    (s.transfer l code answer).readReg l = v ∧ Memory.sameBut s.fs (s.transfer l code answer).fs [s.ref l] := by
  have hfs := s.transfer_fs_of_some l code h
  constructor
  · rw [State.readReg, State.readFs, State.ref_transfer, hfs, Memory.readWord_writeWord_self]
  · rw [hfs]
    exact Memory.sameBut_writeWord _ _ _ (List.mem_singleton.mpr rfl)

theorem exec_cpu (l : Reg) (code : BitVec 7) (s : State) :
    exec (.cpu l code) s = .next ((s.transfer l code (s.platformAnswer l code)).advance 1) := rfl

/-- Settles O18, by whether the platform's answer has a result. -/
theorem cpuHandsTheRequestToThePlatform : Obligations.CpuHandsTheRequestToThePlatform := by
  intro l code s
  refine ⟨_, exec_cpu l code s, rfl, rfl, Memory.sameBut_refl s.ram [],
    s.sameHidden_transfer l code (s.platformAnswer l code), rfl, rfl, ?_⟩
  split
  · next hnone =>
    rw [State.advance_fs, s.transfer_fs_of_none (answer := s.platformAnswer l code) l code hnone]
    exact Memory.sameBut_refl s.fs []
  · next v hsome =>
    rw [State.readReg_advance, State.advance_fs]
    exact s.transfer_of_some l code hsome

/-- Settles O19: the keyboard's answer always has a result and never ends the run. -/
theorem keyboardAnswerReachesTheRegister : Obligations.KeyboardAnswerReachesTheRegister := by
  intro s l code ready keycode
  obtain ⟨hread, hfs⟩ := s.transfer_of_some (answer := keycodeAnswer ready keycode) l code rfl
  exact ⟨hread, hfs, Memory.sameBut_refl s.ram [], s.sameHidden_transfer l code _, Bool.or_false s.runEnded⟩

/-- Settles O17: at reset no event is listed, and the word fetched is zero, which is the request (R201). -/
theorem firstStepFromResetIsTheBootRequest : Obligations.FirstStepFromResetIsTheBootRequest := by
  have hfetch : State.reset.fetch = 0x0000 := Memory.readWord_nil 0x0000
  have hdecode : decode State.reset.fetch = .ok (.cpu .d sysBoot) := by rw [hfetch]; rfl
  exact step_of_quiet rfl hdecode

end Sys2Proof.Machine
end

section
/-! PROOFS. The instructions of mode 2 (R120 to R129): a register write or a store, and the number that the word written
is. -/

namespace Sys2Proof.Machine

/-! The operand sums (R66). -/

theorem State.offs_eq (s : State) (r1 : Reg) (lor : BitVec 3) : s.offs r1 lor = s.readReg r1 + lor.zeroExtend 16 := rfl

theorem State.sxoffs_eq (s : State) (r1 : Reg) (lor : BitVec 3) :
    s.sxoffs r1 lor = s.readReg r1 + lor.signExtend 16 := rfl

/-! JMP (R120). -/

/-- The target is OFFS of the state before L is written. -/
theorem exec_jmp (l r1 : Reg) (lor : BitVec 3) (s : State) :
    exec (.jmp l r1 lor) s = .next ((s.writeReg l s.pc).setPc (s.offs r1 lor)) := rfl

/-- A register write and a jump change, besides the PC, only the word of that register. -/
theorem State.changesOnlyFs_writeReg_setPc (s : State) (x : Reg) (v target : Word) :
    s.changesOnlyFs ((s.writeReg x v).setPc target) [s.ref x] :=
  State.changesOnlyFs_trans (s.changesOnlyFs_writeReg x v (List.mem_singleton.mpr rfl))
    (State.changesOnlyFs_setPc _ target _)

/-- Settles O24: the target was read before L was written. -/
theorem jmpLinksAndJumps : Obligations.JmpLinksAndJumps := by
  intro l r1 lor s
  refine ⟨_, exec_jmp l r1 lor s, s.offs_eq r1 lor, ?_, s.changesOnlyFs_writeReg_setPc l _ _⟩
  rw [State.readReg_setPc, State.readReg_writeReg_self]

/-! LTR, EQR and GTR (R121 to R123, R129). -/

/-- Settles O25: three words for D, each the comparison of the unsigned numbers. -/
theorem registerComparisonsSetD : Obligations.RegisterComparisonsSetD := by
  intro l r1 lor s
  refine ⟨exec_writeD_advance rfl ?_, exec_writeD_advance rfl ?_, exec_writeD_advance rfl ?_⟩
  · rw [lessWord_eq_ite, State.sxoffs_eq]
  · rw [equalWord_eq_ite, State.sxoffs_eq]
  · rw [greaterWord_eq_ite, State.sxoffs_eq]

/-! LOD, SHL, SHR and GET (R124, R126 to R128): one word goes to L. -/

/-- An instruction that only puts a word into a register and goes on to the next. -/
theorem exec_writeReg_advance {i : Instr} {s : State} {l : Reg} {v : Word}
    (he : exec i s = .next ((s.writeReg l v).advance 1)) :
    ∃ t, exec i s = .next t ∧ t.pc = s.pc + 1 ∧ t.readReg l = v ∧ s.changesOnlyFs t [s.ref l] :=
  ⟨_, he, rfl, s.readReg_writeReg_advance l v 1, s.changesOnlyFs_writeReg_advance l v 1⟩

theorem exec_lod (l r1 : Reg) (lor : BitVec 3) (s : State) :
    exec (.lod l r1 lor) s = .next ((s.writeReg l (s.memRead (s.offs r1 lor))).advance 1) := rfl

theorem exec_shl (l r1 : Reg) (count : Nat) (s : State) :
    exec (.shl l r1 count) s = .next ((s.writeReg l (shiftLeft (s.readReg r1) count)).advance 1) := rfl

/-- SHR shifts with the fill that the parameter `SHR_FILL` has in this model (R5, R127). -/
theorem exec_shr (l r1 : Reg) (count : Nat) (s : State) :
    exec (.shr l r1 count) s = .next ((s.writeReg l (shiftRight .zero (s.readReg r1) count)).advance 1) := rfl

theorem exec_get (l r1 : Reg) (r2 : BitVec 4) (s : State) :
    exec (.get l r1 r2) s = .next ((s.writeReg l (s.readReg r1 + sext4 r2)).advance 1) := rfl

theorem shiftLeft_toNat (v : Word) (count : Nat) : (shiftLeft v count).toNat = v.toNat * 2 ^ count % 2 ^ 16 := by
  rw [shiftLeft, BitVec.toNat_shiftLeft, Nat.shiftLeft_eq]

theorem shiftRight_zero_toNat (v : Word) (count : Nat) : (shiftRight .zero v count).toNat = v.toNat / 2 ^ count := by
  rw [shiftRight, BitVec.toNat_ushiftRight, Nat.shiftRight_eq_div_pow]

/-- The sum with a signed literal is the sum of the numbers, modulo 2^16 (R67). -/
theorem add_sext4 (v : Word) (r2 : BitVec 4) : v + sext4 r2 = BitVec.ofInt 16 (v.toNat + r2.toInt) := by
  rw [BitVec.ofInt_add, BitVec.ofInt_natCast, BitVec.ofNat_toNat, BitVec.setWidth_eq, sext4, BitVec.signExtend]

/-- Settles O26. -/
theorem lodLoadsAWord : Obligations.LodLoadsAWord := by
  intro l r1 lor s
  rw [← State.offs_eq]
  exact exec_writeReg_advance (exec_lod l r1 lor s)

/-- Settles O28. -/
theorem shlMultipliesByAPowerOfTwo : Obligations.ShlMultipliesByAPowerOfTwo := by
  intro l r1 count s
  obtain ⟨t, he, hpc, hl, hframe⟩ := exec_writeReg_advance (exec_shl l r1 count s)
  exact ⟨t, he, hpc, by rw [hl, shiftLeft_toNat], hframe⟩

/-- Settles O29: the fill of this model is zero, so the shift divides the unsigned number. -/
theorem shrFillsWithZero : Obligations.ShrFillsWithZero := by
  intro l r1 count s
  obtain ⟨t, he, hpc, hl, hframe⟩ := exec_writeReg_advance (exec_shr l r1 count s)
  exact ⟨t, he, hpc, by rw [hl, shiftRight_zero_toNat], hframe⟩

/-- Settles O30. -/
theorem getAddsASignedLiteral : Obligations.GetAddsASignedLiteral := by
  intro l r1 r2 s
  rw [← add_sext4]
  exact exec_writeReg_advance (exec_get l r1 r2 s)

/-! STO (R125). -/

/-- Settles O27: the one store writes the word at OFFS and nothing else. -/
theorem stoStoresAWord : Obligations.StoStoresAWord := by
  intro l r1 lor s
  refine ⟨_, exec_sto l r1 lor s, rfl, s.offs_eq r1 lor, ?_, ?_, Memory.sameBut_refl s.fs [],
    ⟨rfl, rfl, rfl⟩, ⟨rfl, rfl, rfl⟩⟩
  · rw [State.memRead_advance, State.memRead_memWrite, if_pos rfl]
  · rw [State.advance_ram, State.memWrite_ram]
    exact Memory.sameBut_writeWord s.ram _ _ (List.mem_singleton.mpr rfl)

end Sys2Proof.Machine
end

section
/-! PROOFS. The instructions of mode 3 (R140 to R142): JSR by the rules of a pushed frame, RTS by those of a write of D
and a popped frame, and that RTS undoes JSR by what is said of the two. -/

namespace Sys2Proof.Machine

/-! The frame-store words of a subroutine frame (R19). -/

@[simp] theorem State.readFs_setPc (s : State) (v c : Word) : (s.setPc v).readFs c = s.readFs c := rfl

@[simp] theorem State.readReg_popFrame_d (s : State) (saved : Word) :
    (s.popFrame saved).readReg .d = s.readReg .d := rfl

/-- R is the first word of the current subroutine frame. -/
theorem State.readReg_r (s : State) : s.readReg .r = s.readFs s.sfp :=
  congrArg s.readFs (BitVec.add_zero s.sfp)

/-- The new frame starts 9 words below the caller's, with the return address in its first word and the caller's key in
its ninth. -/
theorem State.pushFrame_saves (s : State) (key : FrameKey) (ret : Word) :
    (s.pushFrame key ret).readFs (s.sfp - 9 + 8) = s.cfk.zeroExtend 16 ∧
      (s.pushFrame key ret).readFs (s.sfp - 9) = ret := by
  obtain ⟨hr, hfk, _⟩ := s.pushFrame_spec key ret
  rw [State.readReg_r] at hr
  exact ⟨hfk, hr⟩

/-! JSR (R140). -/

/-- Where JSR goes: to the word after its own, or to D if that word is zero, both read before the frame is pushed. -/
theorem exec_jsr_target (key : FrameKey) (s : State) :
    exec (.jsr key) s = .next ((s.pushFrame key (s.pc + 2)).setPc
      (if s.memRead (s.pc + 1) ≠ 0 then s.memRead (s.pc + 1) else s.readReg .d)) := rfl

/-- Settles O31: what is written is the frame pushed, and the jump writes nothing. -/
theorem jsrMakesAFrame : Obligations.JsrMakesAFrame := by
  intro key s
  obtain ⟨hfk, hr⟩ := s.pushFrame_saves key (s.pc + 2)
  obtain ⟨_, _, hframe⟩ := s.pushFrame_spec key (s.pc + 2)
  refine ⟨_, exec_jsr_target key s, rfl, rfl, rfl, ?_, ?_, rfl, hframe, Memory.sameBut_refl s.ram [], rfl, rfl, rfl⟩
  · rw [State.readFs_setPc, hfk]
  · rw [State.readFs_setPc, hr]

/-! RTS (R141). -/

/-- Where RTS goes: to R of the frame being left, read before D is written. -/
theorem exec_rts_target (code : BitVec 12) (s : State) :
    exec (.rts code) s =
      .next (((s.writeD (code.zeroExtend 16)).setPc (s.readReg .r)).popFrame (s.readFs (s.sfp + 8))) := rfl

/-- Settles O32: D is the one word written, and it hangs on IFP alone, so leaving the frame does not move it. -/
theorem rtsLeavesAFrame : Obligations.RtsLeavesAFrame := by
  intro code s
  refine ⟨_, exec_rts_target code s, ?_, rfl, rfl, rfl, rfl, ?_, Memory.sameBut_refl s.ram [], rfl, rfl, rfl⟩
  · rw [State.readReg_popFrame_d, State.readReg_setPc, State.readReg_writeD, if_pos rfl]
  · rw [State.popFrame_fs, State.setPc_fs, State.writeD_fs]
    exact Memory.sameBut_writeWord s.fs _ _ (List.mem_singleton.mpr rfl)

/-! A call and its return (R142). -/

/-- A frame key comes back whole from the word it was saved in (R17). -/
theorem setWidth_zeroExtend_frameKey (key : FrameKey) : (key.zeroExtend 16).setWidth 12 = key := by
  rw [BitVec.setWidth_setWidth_of_le key (by decide), BitVec.setWidth_eq]

/-- Settles O40: RTS reads the two words that JSR wrote, and its step up undoes the step down. -/
theorem returnRestoresTheCaller : Obligations.ReturnRestoresTheCaller := by
  intro s t u key code hcall hsfp hr hfk
  obtain ⟨t', hcall', htsfp, _, _, htfk, htr, _⟩ := jsrMakesAFrame key s
  obtain rfl := Host.Outcome.next.inj (hcall'.symm.trans hcall)
  obtain ⟨v, hret, _, hvpc, hvcfk, hvsfp, _⟩ := rtsLeavesAFrame code u
  refine ⟨v, hret, ?_, ?_, ?_⟩
  · rw [hvpc, State.readReg_r, hr, htsfp, htr]
  · rw [hvsfp, hsfp, htsfp, BitVec.sub_add_cancel]
  · rw [hvcfk, hfk, htsfp, htfk, setWidth_zeroExtend_frameKey]

end Sys2Proof.Machine
end

section
/-! PROOFS. The instructions of mode 4 (R150 to R156): a bitwise word for L, or a sum for L and its carry for D, where the
sum with a two's complement is a difference. -/

namespace Sys2Proof.Machine

/-! ADD and SUB (R153, R154). -/

/-- A stored sum changes, besides the PC, only the words of L and D; D is written after L, so the carry remains where
both name one word (R153). -/
theorem State.storeSum_spec (s : State) (l : Reg) (a b : Word) :
    (s.storeSum l a b).pc = s.pc + 1 ∧ (s.storeSum l a b).readReg .d = carryWord a b ∧
      (s.storeSum l a b).readReg l = (if s.ref l = s.ref .d then carryWord a b else sumWord a b) ∧
      s.changesOnlyFs (s.storeSum l a b) [s.ref l, s.ref .d] := by
  refine ⟨rfl, ?_, ?_, s.changesOnlyFs_writeReg_writeD_setPc l _ _ _⟩
  · rw [State.storeSum, State.readReg_advance, State.readReg_writeD, if_pos rfl]
  · rw [State.storeSum, State.readReg_advance, State.readReg_writeD, State.ref_writeReg, State.ref_writeReg,
      State.readReg_writeReg_self]

theorem exec_add (l r2 r1 : Reg) (s : State) :
    exec (.add l r2 r1) s = .next (s.storeSum l (s.readReg r2) (s.readReg r1)) := rfl

/-- SUB takes R1 from R2, the order that the parameter `SUB_ORDER` has in this model (R5, R154). -/
theorem exec_sub (l r2 r1 : Reg) (s : State) :
    exec (.sub l r2 r1) s = .next (s.storeSum l (s.readReg r2) (complement (s.readReg r1))) := rfl

/-- Settles O34: the words stored are the quotient and the remainder of the exact sum. -/
theorem addStoresSumThenCarry : Obligations.AddStoresSumThenCarry := by
  intro l r2 r1 s
  have hpow : 2 ^ 16 = 65536 := rfl
  obtain ⟨hpc, hd, hl, hframe⟩ := s.storeSum_spec l (s.readReg r2) (s.readReg r1)
  refine ⟨_, exec_add l r2 r1 s, hpc, ?_, ?_, hframe⟩
  · rw [hd, carryWord_toNat, hpow]
  · rw [hl, apply_ite BitVec.toNat, carryWord_toNat, sumWord_toNat, hpow]

theorem complement_eq_neg (v : Word) : complement v = -v := (BitVec.neg_eq_not_add v).symm

/-- Adding the two's complement subtracts (R154). -/
theorem sumWord_complement (a b : Word) : sumWord a (complement b) = a - b := by
  rw [sumWord_eq_add, complement_eq_neg, BitVec.sub_eq_add_neg]

/-- The carry of adding the two's complement says that nothing was borrowed; a zero subtrahend, whose complement is
zero, gives no carry (R154). -/
theorem carryWord_complement (a b : Word) :
    carryWord a (complement b) = if b ≠ 0 ∧ b.toNat ≤ a.toNat then 1 else 0 := by
  have ha := a.isLt
  have hb := b.isLt
  have hzero : b ≠ 0 ↔ b.toNat ≠ 0 := BitVec.toNat_ne
  apply BitVec.eq_of_toNat_eq
  rw [carryWord_toNat, complement_toNat]
  split
  · next h =>
    rw [hzero] at h
    show _ = 1
    omega
  · next h =>
    rw [hzero] at h
    show _ = 0
    omega

/-- Settles O35: SUB stores the sum of R2 and the complement of R1. -/
theorem subStoresDifferenceThenCarry : Obligations.SubStoresDifferenceThenCarry := by
  intro l r2 r1 s
  obtain ⟨hpc, hd, hl, hframe⟩ := s.storeSum_spec l (s.readReg r2) (complement (s.readReg r1))
  rw [carryWord_complement] at hd
  rw [carryWord_complement, sumWord_complement] at hl
  exact ⟨_, exec_sub l r2 r1 s, hpc, hd, hl, hframe⟩

/-! AND, IOR and EOR (R150 to R152). -/

theorem exec_and (l r2 r1 : Reg) (s : State) :
    exec (.and l r2 r1) s = .next ((s.writeReg l (s.readReg r2 &&& s.readReg r1)).advance 1) := rfl

theorem exec_ior (l r2 r1 : Reg) (s : State) :
    exec (.ior l r2 r1) s = .next ((s.writeReg l (s.readReg r2 ||| s.readReg r1)).advance 1) := rfl

theorem exec_eor (l r2 r1 : Reg) (s : State) :
    exec (.eor l r2 r1) s = .next ((s.writeReg l (s.readReg r2 ^^^ s.readReg r1)).advance 1) := rfl

/-- An instruction that only puts a word into a register, with that word given by its bits. -/
theorem exec_writeReg_advance_bits {i : Instr} {s : State} {l : Reg} {v : Word} {bit : Nat → Bool}
    (he : exec i s = .next ((s.writeReg l v).advance 1)) (hbit : ∀ n, v.getLsbD n = bit n) :
    ∃ t, exec i s = .next t ∧ t.pc = s.pc + 1 ∧ s.changesOnlyFs t [s.ref l] ∧ ∀ n, (t.readReg l).getLsbD n = bit n := by
  obtain ⟨t, he, hpc, hl, hframe⟩ := exec_writeReg_advance he
  exact ⟨t, he, hpc, hframe, fun n => by rw [hl, hbit]⟩

/-- Settles O33: three words for L, each by its bits. -/
theorem logicInstructionsWorkBitByBit : Obligations.LogicInstructionsWorkBitByBit := fun l r2 r1 s =>
  ⟨exec_writeReg_advance_bits (exec_and l r2 r1 s) fun _ => BitVec.getLsbD_and,
    exec_writeReg_advance_bits (exec_ior l r2 r1 s) fun _ => BitVec.getLsbD_or,
    exec_writeReg_advance_bits (exec_eor l r2 r1 s) fun _ => BitVec.getLsbD_xor⟩

end Sys2Proof.Machine
end

section
/-! PROOFS. What can come between or end instructions: no exception (R170, R171), the end of the run (R185), and the
interrupt movements of IFP, one by one, nested, and absent (R173 to R178). -/

namespace Sys2Proof.Machine

/-! No exception, and the end of the run. -/

/-- Settles O10. -/
theorem noInstructionTraps : Obligations.NoInstructionTraps := exec_answers

theorem State.boundary_of_runEnded {s : State} (h : s.runEnded = true) : s.boundary = .ended := by
  simp [State.boundary, h]

/-- Settles O12: the boundary itself ends, before any event or fetch. -/
theorem noStepAfterRunEnded : Obligations.NoStepAfterRunEnded := by
  intro s h
  simp only [step, State.boundary_of_runEnded h]

/-! One interrupt movement (R173, R174). -/

/-- D is the first word of the current interrupt frame. -/
theorem State.readReg_d (s : State) : s.readReg .d = s.readFs s.ifp :=
  congrArg s.readFs (BitVec.add_zero s.ifp)

/-- The step at a boundary with the completion of an interrupt is the movement back alone. -/
theorem step_of_irq_handled {s : State} {resume : Word} {rest : List PlatformEvent} (hr : s.runEnded = false)
    (hi : s.irq = .handled resume :: rest) : step s = .next ((s.setIrq rest).leaveInterrupt resume) := by
  have hb : s.boundary = .moved ((s.setIrq rest).leaveInterrupt resume) := by simp [State.boundary, hr, hi]
  simp only [step, hb]

/-- Settles O43: the entry writes IFP and PC only, and D is then the first word of the frame 4 words up. -/
theorem interruptEntryBanksD : Obligations.InterruptEntryBanksD := fun s handler rest hr hi =>
  ⟨(s.setIrq rest).enterInterrupt handler, step_of_irq_request hr hi, rfl, rfl, rfl, rfl, Memory.sameBut_refl s.fs [],
    Memory.sameBut_refl s.ram [], ((s.setIrq rest).enterInterrupt handler).readReg_d, rfl, hr, rfl⟩

/-- Settles O44: the movement back writes IFP and PC only, and D is then the first word of the frame 4 words down. -/
theorem interruptCompletionUnbanksD : Obligations.InterruptCompletionUnbanksD := fun s resume rest hr hi =>
  ⟨(s.setIrq rest).leaveInterrupt resume, step_of_irq_handled hr hi, rfl, rfl, rfl, rfl, Memory.sameBut_refl s.fs [],
    Memory.sameBut_refl s.ram [], ((s.setIrq rest).leaveInterrupt resume).readReg_d, rfl, hr, rfl⟩

/-! Nested interrupts (R178). -/

/-- A run of steps that ends in a state began with a step that answered one. -/
theorem steps_succ_cases {k : Nat} {s t : State} (h : steps (k + 1) s = some t) :
    ∃ u, step s = .next u ∧ steps k u = some t := by
  cases hu : step s with
  | next u => exact ⟨u, rfl, (steps_succ k hu).symm.trans h⟩
  | fault _ | refused _ => simp [steps, hu] at h

/-- A run of steps made one step longer at its end. -/
theorem steps_succ_last {k : Nat} {s t u : State} (h : steps k s = some t) (hu : step t = .next u) :
    steps (k + 1) s = some u := by
  induction k generalizing s with
  | zero =>
    obtain rfl := Option.some.inj h
    exact steps_succ 0 hu
  | succ k ih =>
    obtain ⟨v, hv, hvt⟩ := steps_succ_cases h
    exact (steps_succ (k + 1) hv).trans (ih hvt)

/-- With the same hidden registers and the same frame store every register reads the same. -/
theorem State.readReg_congr {s t : State} (hh : s.sameHidden t) (hfs : Memory.sameBut s.fs t.fs []) (x : Reg) :
    t.readReg x = s.readReg x := by
  unfold State.readReg State.readFs
  rw [State.ref_congr hh x, Memory.sameBut_readWord hfs List.not_mem_nil]

/-- The induction goes from the outermost interrupt inwards: the first request is undone by the last completion, and
what lies between them leaves the hidden registers and the frame store of the first handler as they were. -/
theorem steps_nested_interrupts (handlers resumes : List Word) (rest : List PlatformEvent) (s : State)
    (hlen : handlers.length = resumes.length) (hr : s.runEnded = false)
    (hi : s.irq = handlers.map PlatformEvent.request ++ (resumes.map PlatformEvent.handled ++ rest)) :
    ∃ t, steps (handlers.length + resumes.length) s = some t ∧ s.sameHidden t ∧ Memory.sameBut s.fs t.fs [] ∧
      t.runEnded = false ∧ t.irq = rest := by
  induction handlers generalizing resumes rest s with
  | nil =>
    obtain rfl := List.eq_nil_of_length_eq_zero hlen.symm
    exact ⟨s, rfl, ⟨rfl, rfl, rfl⟩, Memory.sameBut_refl s.fs [], hr, hi⟩
  | cons handler handlers ih =>
    obtain rfl | ⟨inner, last, rfl⟩ := resumes.eq_nil_or_concat'
    · simp at hlen
    have hleninner : handlers.length = inner.length := by simpa using hlen
    obtain ⟨t, hst, _, htifp, htsfp, htcfk, htfs, _, _, _, htr, hti⟩ := interruptEntryBanksD s handler _ hr hi
    obtain ⟨u, htu, ⟨husfp, huifp, hucfk⟩, hufs, hur, hui⟩ :=
      ih inner (.handled last :: rest) t hleninner htr (by simp [hti])
    obtain ⟨v, huv, _, hvifp, hvsfp, hvcfk, hvfs, _, _, _, hvr, hvi⟩ := interruptCompletionUnbanksD u last rest hur hui
    have hcount : (handler :: handlers).length + (inner ++ [last]).length =
        handlers.length + inner.length + 1 + 1 := by
      simp only [List.length_cons, List.length_append, List.length_nil]
      omega
    have hsteps : steps ((handler :: handlers).length + (inner ++ [last]).length) s = some v := by
      rw [hcount, steps_succ _ hst]
      exact steps_succ_last htu huv
    have hifp : v.ifp = s.ifp := by rw [hvifp, huifp, htifp, BitVec.add_sub_cancel]
    exact ⟨v, hsteps, ⟨hvsfp.trans (husfp.trans htsfp), hifp, hvcfk.trans (hucfk.trans htcfk)⟩,
      Memory.sameBut_trans htfs (Memory.sameBut_trans hufs hvfs), hvr, hvi⟩

/-- Settles O45: registers are words of the frame store at addresses that hang on the hidden registers alone. -/
theorem nestedInterruptsUnwind : Obligations.NestedInterruptsUnwind := by
  intro handlers resumes rest s hlen hr hi
  obtain ⟨t, hst, hhidden, hfs, _, hti⟩ := steps_nested_interrupts handlers resumes rest s hlen hr hi
  exact ⟨t, hst, hhidden, hti, State.readReg_congr hhidden hfs⟩

/-! Runs without interrupts (R176). -/

/-- What every step keeps, a run of steps keeps. -/
theorem steps_keep {P : State → Prop} (hstep : ∀ {s t : State}, P s → step s = .next t → P t) {k : Nat} {s t : State}
    (hs : P s) (h : steps k s = some t) : P t := by
  induction k generalizing s with
  | zero =>
    obtain rfl := Option.some.inj h
    exact hs
  | succ k ih =>
    obtain ⟨u, hu, hut⟩ := steps_succ_cases h
    exact ih (hstep hs hu) hut

/-- With no event listed a step is an instruction, and no instruction moves IFP or lists an event. -/
theorem step_of_irq_nil_keeps_ifp {s t : State} (hi : s.irq = []) (h : step s = .next t) :
    t.ifp = s.ifp ∧ t.irq = [] := by
  obtain ⟨_, ⟨_, _, hreq, _⟩ | ⟨_, _, hhan, _⟩ | ⟨i, rest, hrest, _, he⟩⟩ := step_cases h
  · exact absurd (hi.symm.trans hreq) nofun
  · exact absurd (hi.symm.trans hhan) nofun
  · obtain hq | ⟨_, rfl⟩ := hrest
    · exact absurd (hi.symm.trans hq) nofun
    obtain ⟨u, hu, hifp, _⟩ := onlyCallAndReturnMoveHiddenRegisters i (s.setIrq [])
    obtain ⟨v, hv, hirq, _⟩ := onlyCpuReachesThePlatform i (s.setIrq [])
    obtain rfl := Host.Outcome.next.inj (hu.symm.trans he)
    obtain rfl := Host.Outcome.next.inj (hv.symm.trans he)
    exact ⟨hifp, hirq⟩

/-- Settles O46: the two facts together are kept by every step. -/
theorem withoutRequestsIfpNeverMoves : Obligations.WithoutRequestsIfpNeverMoves := by
  intro k s t hi h
  refine steps_keep (P := fun u => u.ifp = s.ifp ∧ u.irq = []) (fun ⟨hifp, hirq⟩ hstep => ?_) ⟨rfl, hi⟩ h
  obtain ⟨hifp', hirq'⟩ := step_of_irq_nil_keeps_ifp hirq hstep
  exact ⟨hifp'.trans hifp, hirq'⟩

end Sys2Proof.Machine
end

section
/-! PROOFS. The state after reset (R200): the start of every run of the machine. -/

namespace Sys2Proof.Machine

/-- Settles O14: reset lists no cell in main RAM and none in the frame store (log entries 2 and 3), and a memory that
lists nothing has the canonical form for any number of words. -/
theorem resetMemoriesAreCanonical : Obligations.ResetMemoriesAreCanonical :=
  (State.inv_iff State.reset).mpr ⟨Memory.wf_nil 65536, Memory.wf_nil 65536⟩

end Sys2Proof.Machine
end
